-- ==== Sys2Proof/Word.lean ====
section
/-!
DEFINITION. The word types of dq3sim CORE. Every value of the block is an unsigned integer of a stated width
(00_scope.md R11); bit 0 is the least significant bit (R10).
-/

namespace Sys2Proof

/-- A 32-bit word: the RNG register, the argument of a command, the data of a response (R20, R80, R83). -/
abbrev Word := BitVec 32

/-- A byte: a draw, a ROM byte, an identifier, a raw 4.4 or 1.7 pattern (R7, R50, R132, R133). -/
abbrev Byte := BitVec 8

/-- An 8.8 pattern `p`, denoting `p / 256` (R13, R131). -/
abbrev Fix88 := BitVec 16

/-- A raw 4.4 pattern `g`, denoting `g / 16` (R13, R132). -/
abbrev Fix44 := BitVec 8

/-- A raw 1.7 pattern `f`, denoting `f / 128` (R13, R133). -/
abbrev Fix17 := BitVec 8

/-- A command word `cmd[39:0]` (R80). -/
abbrev CommandWord := BitVec 40

end Sys2Proof
end

