-- ==== Sys2Proof/Syntax.lean ====
section
/-!
DEFINITION. The commands of the block, one constructor per row of opcode_table.json (30_encoding.md R85), with the
fields of each row's format (R81); and the names of the registers and attributes (10_state.md R23, R26).
-/

namespace Sys2Proof

/-- The five attributes, in the numbering of R26 and R160. -/
inductive Attr where
  | power
  | speed
  | vitality
  | intelligence
  | luck
deriving DecidableEq, Repr

/-- The registers of the Character file (R23). -/
inductive CReg where
  | level
  | maxhp
  | maxmp
  | sex
  | pers
  | job
  | attr (a : Attr)
deriving DecidableEq, Repr

/-- A command, with its operand fields as the command word holds them (R82): a `reg` or attribute field may be one
that selects nothing, which is illegal by value (R92) and answered by the command itself. -/
inductive Instr where
  | status
  | rngSeed (imm32 : Word)
  | rngRead
  | randU
  | randS (upper : Byte)
  | randM (offset : Byte) (mask : Byte)
  | fxAdd (x : Fix88) (y : Fix88)
  | fxSub (x : Fix88) (y : Fix88)
  | fxMul (x : Fix88) (y : Fix88)
  | fxHalf (x : Fix88)
  | fxW44 (g : Fix44)
  | fxW17 (f : Fix17)
  | fxTrunc (x : Fix88)
  | fxFromint (n : Byte)
  | fxGinc (g : Fix44) (r : Byte) (f : Fix17)
  | chWr (reg : Byte) (val : BitVec 16)
  | chRd (reg : Byte)
  | lvlup
  | jobchg (job : Byte)
  | perschg (pers : Byte)
  | range (level : Byte) (attr : Byte)
deriving DecidableEq, Repr

end Sys2Proof
end

