-- ==== Sys2Proof/Decode.lean ====
section
/-!
DEFINITION. The decoder (30_encoding.md R84), total on every 40-bit word and refusing by name, and after it the
encoder, both written from the opcode map (R85) and the formats (R81).
-/

namespace Sys2Proof

/-- The argument formats of R81. -/
inductive Format where
  | N
  | W
  | B
  | BB
  | BBB
  | H
  | HH
  | R
  | RV
deriving DecidableEq, Repr

/-- The bits of `arg` that are no field of the format and must be zero (R84). -/
def Format.reservedMask : Format → Word
  | .N => 0xFFFFFFFF#32
  | .W => 0x00000000#32
  | .B => 0xFFFFFF00#32
  | .BB => 0xFFFF0000#32
  | .BBB => 0xFF000000#32
  | .H => 0xFFFF0000#32
  | .HH => 0x00000000#32
  | .R => 0xFF00FFFF#32
  | .RV => 0xFF000000#32

/-- The fields of R81, each an unsigned slice of `arg` (R82). -/
def fieldA (arg : Word) : Byte := arg.extractLsb' 0 8
def fieldB (arg : Word) : Byte := arg.extractLsb' 8 8
def fieldC (arg : Word) : Byte := arg.extractLsb' 16 8
def fieldX (arg : Word) : BitVec 16 := arg.extractLsb' 0 16
def fieldY (arg : Word) : BitVec 16 := arg.extractLsb' 16 16
def fieldReg (arg : Word) : Byte := arg.extractLsb' 16 8
def fieldVal (arg : Word) : BitVec 16 := arg.extractLsb' 0 16

/-- One row of the opcode map: its name, its opcode byte, its format, and the command its fields make. -/
structure Row where
  mnemonic : String
  opcode   : Byte
  format   : Format
  build    : Word → Instr

/-- The opcode map of R85, system and RNG rows. -/
def systemAndRngRows : List Row :=
  [ ⟨"STATUS", 0x01#8, .N, fun _ => .status⟩,
    ⟨"RNG_SEED", 0x10#8, .W, fun arg => .rngSeed arg⟩,
    ⟨"RNG_READ", 0x11#8, .N, fun _ => .rngRead⟩,
    ⟨"RAND_U", 0x14#8, .N, fun _ => .randU⟩,
    ⟨"RAND_S", 0x15#8, .B, fun arg => .randS (fieldA arg)⟩,
    ⟨"RAND_M", 0x16#8, .BB, fun arg => .randM (fieldA arg) (fieldB arg)⟩ ]

/-- The opcode map of R85, fixed-point rows. -/
def fixedPointRows : List Row :=
  [ ⟨"FX_ADD", 0x20#8, .HH, fun arg => .fxAdd (fieldX arg) (fieldY arg)⟩,
    ⟨"FX_SUB", 0x21#8, .HH, fun arg => .fxSub (fieldX arg) (fieldY arg)⟩,
    ⟨"FX_MUL", 0x22#8, .HH, fun arg => .fxMul (fieldX arg) (fieldY arg)⟩,
    ⟨"FX_HALF", 0x23#8, .H, fun arg => .fxHalf (fieldX arg)⟩,
    ⟨"FX_W44", 0x24#8, .B, fun arg => .fxW44 (fieldA arg)⟩,
    ⟨"FX_W17", 0x25#8, .B, fun arg => .fxW17 (fieldA arg)⟩,
    ⟨"FX_TRUNC", 0x26#8, .H, fun arg => .fxTrunc (fieldX arg)⟩,
    ⟨"FX_FROMINT", 0x27#8, .B, fun arg => .fxFromint (fieldA arg)⟩,
    ⟨"FX_GINC", 0x28#8, .BBB, fun arg => .fxGinc (fieldA arg) (fieldB arg) (fieldC arg)⟩ ]

/-- The opcode map of R85, growth rows. -/
def growthRows : List Row :=
  [ ⟨"CH_WR", 0x30#8, .RV, fun arg => .chWr (fieldReg arg) (fieldVal arg)⟩,
    ⟨"CH_RD", 0x31#8, .R, fun arg => .chRd (fieldReg arg)⟩,
    ⟨"LVLUP", 0x32#8, .N, fun _ => .lvlup⟩,
    ⟨"JOBCHG", 0x33#8, .B, fun arg => .jobchg (fieldA arg)⟩,
    ⟨"PERSCHG", 0x34#8, .B, fun arg => .perschg (fieldA arg)⟩,
    ⟨"RANGE", 0x35#8, .BB, fun arg => .range (fieldA arg) (fieldB arg)⟩ ]

/-- The opcode map of R85: 21 rows. -/
def opcodeMap : List Row := systemAndRngRows ++ fixedPointRows ++ growthRows

/-- A row's 40-bit `mask` and `match` as opcode_table.json gives them (R84). -/
def Row.mask (r : Row) : CommandWord := 0xFF#8 ++ r.format.reservedMask
def Row.matchWord (r : Row) : CommandWord := r.opcode ++ 0#32

/-- `cmd[39:32]` and `cmd[31:0]` (R80). -/
def opcodeOf (cmd : CommandWord) : Byte := cmd.extractLsb' 32 8
def argOf (cmd : CommandWord) : Word := cmd.extractLsb' 0 32

/-- Why a word is an illegal command: its opcode is unassigned (R90), or a reserved bit of its format is one (R91). -/
inductive DecodeError where
  | unassignedOpcode (op : Byte)
  | reservedBits (mnemonic : String) (arg : Word)
deriving DecidableEq, Repr

/-- The row of R85 whose opcode is `op`. -/
def rowOf (op : Byte) : Option Row := opcodeMap.find? (fun r => r.opcode == op)

/-- The decode procedure of R84. -/
def decode (cmd : CommandWord) : Except DecodeError Instr :=
  match rowOf (opcodeOf cmd) with
  | none => .error (.unassignedOpcode (opcodeOf cmd))
  | some row =>
    if argOf cmd &&& row.format.reservedMask ≠ 0#32 then .error (.reservedBits row.mnemonic (argOf cmd))
    else .ok (row.build (argOf cmd))

/-- The instruction the decoder reads from the `nbits` low bits of `w`, bit 0 being `cmd[0]` (the table's numbering
is the command word's own; one 40-bit word, no byte order, R61). -/
def decodeTableWord (nbits w : Nat) : Option Instr :=
  (decode (BitVec.ofNat 40 (w % 2 ^ nbits))).toOption

/-- Argument words of each format (R81), reserved bits zero. -/
def argB (a : Byte) : Word := 0#24 ++ a
def argBB (a b : Byte) : Word := 0#16 ++ b ++ a
def argBBB (a b c : Byte) : Word := 0#8 ++ c ++ b ++ a
def argH (x : BitVec 16) : Word := 0#16 ++ x
def argHH (x y : BitVec 16) : Word := y ++ x
def argRV (reg : Byte) (val : BitVec 16) : Word := 0#8 ++ reg ++ val

/-- The command word of an instruction (R80, R81, R85). -/
def encode : Instr → CommandWord
  | .status => 0x01#8 ++ 0#32
  | .rngSeed imm32 => 0x10#8 ++ imm32
  | .rngRead => 0x11#8 ++ 0#32
  | .randU => 0x14#8 ++ 0#32
  | .randS upper => 0x15#8 ++ argB upper
  | .randM offset mask => 0x16#8 ++ argBB offset mask
  | .fxAdd x y => 0x20#8 ++ argHH x y
  | .fxSub x y => 0x21#8 ++ argHH x y
  | .fxMul x y => 0x22#8 ++ argHH x y
  | .fxHalf x => 0x23#8 ++ argH x
  | .fxW44 g => 0x24#8 ++ argB g
  | .fxW17 f => 0x25#8 ++ argB f
  | .fxTrunc x => 0x26#8 ++ argH x
  | .fxFromint n => 0x27#8 ++ argB n
  | .fxGinc g r f => 0x28#8 ++ argBBB g r f
  | .chWr reg val => 0x30#8 ++ argRV reg val
  | .chRd reg => 0x31#8 ++ argRV reg 0#16
  | .lvlup => 0x32#8 ++ 0#32
  | .jobchg job => 0x33#8 ++ argB job
  | .perschg pers => 0x34#8 ++ argB pers
  | .range level attr => 0x35#8 ++ argBB level attr

end Sys2Proof
end

