-- ==== Sys2Proof/Config.lean ====
section
/-!
DEFINITION. The configuration of the block (00_scope.md R8), the constants the spec fixes (R7, R9), and the free
values of the model (93_implementation_defined.md U9).
-/

namespace Sys2Proof

/-- The contents of a byte-wide space: (address, byte) pairs, addresses rising, no entry equal to what an unlisted
address reads as (`Machine.Memory.read`). -/
abbrev Memory := List Host.Cell

/-- The parameter `AHEAD_CMP` of R8: how "exceeds upper" compares (R168). -/
inductive AheadCmp where
  | full
  | floor
deriving DecidableEq, Repr

/-- The configuration record `Cfg` of R8. `jobrom` and `persrom` hold the Growth Tables in the layout of R52, R53. -/
structure Cfg where
  njobs     : Nat
  npers     : Nat
  jobrom    : Memory
  persrom   : Memory
  aheadCmp  : AheadCmp
  aheadUnit : Fix88
deriving DecidableEq, Repr

namespace Config

/-- The default of `AHEAD_CMP` (R8, R168). -/
def defaultAheadCmp : AheadCmp := .full

/-- The default of `AHEAD_UNIT` (R8, R168). -/
def defaultAheadUnit : Fix88 := 0x0100#16

/-- The reset value of the RNG register (R20, R240). -/
def defaultSeed : Word := 0xAAE21259#32

/-- The least and the greatest level (R7, R24). -/
def minLevel : Nat := 1
def maxLevel : Nat := 99

/-- The bytes of one JOBROM record (R52) and of one PERSROM record (R53). -/
def jobRecordBytes : Nat := 128
def persRecordBytes : Nat := 8

/-- At most this many bands per job and attribute (R9). -/
def bandSlots : Nat := 8

/-- The draws of one multinomial sum (R7, R109). -/
def multinomialDraws : Nat := 16

/-- The operands of the level-up's multinomial draw (R7, R167). -/
def levelUpOffset : Byte := 136#8
def levelUpMask : Byte := 31#8

/-
The free values of U9: what RNG and the Character file hold after a TABLE fault inside LVLUP, which the spec does
not say (R215). Each is applied to the counter `unsaid` of State. DESIGN CHOICE, safe (log 5).
-/
opaque unsaidRng : Nat → Word
opaque unsaidLevel : Nat → Nat
opaque unsaidMaxhp : Nat → BitVec 16
opaque unsaidMaxmp : Nat → BitVec 16
opaque unsaidSex : Nat → BitVec 1
opaque unsaidPers : Nat → Nat
opaque unsaidJob : Nat → Nat
opaque unsaidPower : Nat → Fix88
opaque unsaidSpeed : Nat → Fix88
opaque unsaidVitality : Nat → Fix88
opaque unsaidIntelligence : Nat → Fix88
opaque unsaidLuck : Nat → Fix88

end Config
end Sys2Proof
end

