-- ==== Sys2Proof/Machine/TestTable.lean ====
section
/-!
DEFINITION. How a loader writes ROM bytes down as a `Memory` (70_reset_and_hazards.md R242), and the spec's synthetic
table T0 (95_test_vectors.md section 3), which is the spec's own test data and not the game's (N20).
-/

namespace Sys2Proof

/-- The memory that holds `bytes` from address `base` on, in canonical form: a zero byte is what an unlisted address
reads as, so it is not listed. -/
def Memory.ofBytes : Nat → List Byte → Memory
  | _, [] => []
  | base, b :: bytes =>
    if b = 0#8 then Memory.ofBytes (base + 1) bytes else (base, b) :: Memory.ofBytes (base + 1) bytes

namespace T0

/-- JOBROM, job 0, addresses 0 to 95 (the bytes 96 to 127 are zero). -/
def job0 : List Byte :=
  [0x0A, 0x09, 0x08, 0x08, 0x13, 0x11, 0x0C, 0x0D, 0x05, 0x06, 0x00, 0x00, 0x00, 0x00, 0x00, 0x00] ++
  [0x0A, 0x18, 0x14, 0x20, 0x28, 0x14, 0x46, 0x0C, 0x63, 0x08, 0x00, 0x00, 0x00, 0x00, 0x00, 0x00] ++
  [0x08, 0x10, 0x18, 0x1C, 0x2D, 0x18, 0x3C, 0x0A, 0x63, 0x06, 0x00, 0x00, 0x00, 0x00, 0x00, 0x00] ++
  [0x05, 0x30, 0x0C, 0x28, 0x1E, 0x20, 0x32, 0x18, 0x4B, 0x10, 0x63, 0x08, 0x00, 0x00, 0x00, 0x00] ++
  [0x0F, 0x0C, 0x1E, 0x14, 0x32, 0x1E, 0x50, 0x10, 0x63, 0x04, 0x00, 0x00, 0x00, 0x00, 0x00, 0x00] ++
  [0x14, 0x08, 0x28, 0x0A, 0x3C, 0x0C, 0x50, 0x0E, 0x63, 0x10, 0x00, 0x00, 0x00, 0x00, 0x00, 0x00]

/-- JOBROM, job 1, addresses 128 to 223 (the bytes 224 to 255 are zero). -/
def job1 : List Byte :=
  [0x0E, 0x0C, 0x06, 0x06, 0x16, 0x14, 0x03, 0x03, 0x04, 0x05, 0x01, 0x00, 0x00, 0x00, 0x00, 0x00] ++
  [0x0C, 0x2C, 0x19, 0x24, 0x2D, 0x1A, 0x46, 0x10, 0x63, 0x0A, 0x00, 0x00, 0x00, 0x00, 0x00, 0x00] ++
  [0x0F, 0x0C, 0x23, 0x10, 0x37, 0x0E, 0x4B, 0x08, 0x63, 0x04, 0x00, 0x00, 0x00, 0x00, 0x00, 0x00] ++
  [0x06, 0x38, 0x0E, 0x30, 0x1C, 0x26, 0x30, 0x1C, 0x48, 0x12, 0x63, 0x0A, 0x00, 0x00, 0x00, 0x00] ++
  [0x14, 0x02, 0x28, 0x03, 0x3C, 0x04, 0x50, 0x03, 0x63, 0x02, 0x00, 0x00, 0x00, 0x00, 0x00, 0x00] ++
  [0x19, 0x06, 0x32, 0x08, 0x46, 0x0A, 0x55, 0x0C, 0x63, 0x0E, 0x00, 0x00, 0x00, 0x00, 0x00, 0x00]

/-- PERSROM, personalities 0 and 1. -/
def pers : List Byte :=
  [0x80, 0x80, 0x80, 0x80, 0x80, 0x00, 0x00, 0x00] ++
  [0xB3, 0x66, 0x80, 0x5A, 0x8C, 0x00, 0x00, 0x00]

/-- The configuration of 95_test_vectors.md: the table T0 with the default parameters of R8. -/
def cfg : Cfg where
  njobs := 2
  npers := 2
  jobrom := Memory.ofBytes 0 job0 ++ Memory.ofBytes 128 job1
  persrom := Memory.ofBytes 0 pers
  aheadCmp := Config.defaultAheadCmp
  aheadUnit := Config.defaultAheadUnit

end T0
end Sys2Proof
end

