-- ==== Sys2Proof/Machine/State.lean ====
section
/-!
DEFINITION. The state of one block (10_state.md), the reasons a step can stop, and the state after reset
(70_reset_and_hazards.md R240).
-/

namespace Sys2Proof.Machine

/-- The cause of a fault (60_exceptions.md R211), `NONE` left out: it is the absence of one. -/
inductive Cause where
  | mask
  | level
  | table
  | illegal
deriving DecidableEq, Repr

/-- What the host may do next: present a command word (R80), or apply reset (R240). -/
inductive Input where
  | command (word : CommandWord)
  | reset
deriving DecidableEq, Repr

/-- The status of a response (R83): 0 `OK`, 1 `FAULT`. -/
inductive ResponseStatus where
  | ok
  | fault
deriving DecidableEq, Repr

/-- The response to a command (R83). -/
structure Response where
  status : ResponseStatus
  data   : Word
deriving DecidableEq, Repr

/-- Every piece of state the spec gives one block (10_state.md, first table), the two ends of the command interface,
and two fields of the model's own: the configuration, which no step changes, and the index of the next free value. -/
structure State where
  /-- The RNG register (R20). -/
  rng : Word
  /-- `c[0]` (R24). -/
  level : BitVec 7
  /-- `c[1]` (R25). -/
  maxhp : BitVec 16
  /-- `c[2]` (R25). -/
  maxmp : BitVec 16
  /-- `c[3]` (R27). -/
  sex : BitVec 1
  /-- `c[4]` (R28). -/
  pers : Byte
  /-- `c[5]` (R28). -/
  job : Byte
  /-- `c[8]` to `c[12]` (R26). -/
  power : Fix88
  speed : Fix88
  vitality : Fix88
  intelligence : Fix88
  luck : Fix88
  /-- `STATUS.FAULT` (R31). -/
  fault : BitVec 1
  /-- `STATUS.CAUSE` (R31). -/
  cause : BitVec 8
  /-- What the host has yet to present, the next first. DESIGN CHOICE (log 3). -/
  pending : List Input
  /-- The response of the last command, none right after reset. DESIGN CHOICE (log 4). -/
  resp : Option Response
  /-- The configuration (R8): not state (R50), carried beside it. DESIGN CHOICE (log 1). -/
  cfg : Cfg
  /-- The index of the next free value. DESIGN CHOICE (log 5). -/
  unsaid : Nat
deriving DecidableEq, Repr

/-- What stops the machine. No fault of the spec does: each is a next state with the fault latched (R214). -/
inductive Fault where
  /-- Raised by `LVLUP` and `RANGE` where they read a ROM byte outside every record, which the spec says cannot arise
  (20_memory.md R54): only in a state whose `JOB` or `PERS` names no record, which no run reaches. Safe (log 6). -/
  | romAddressAbsent
deriving DecidableEq, Repr

/-- What has no meaning. -/
inductive Refusal where
  /-- Raised by an arm of `exec` whose command has no meaning yet. No arm does. Safe. -/
  | notModelled (mnemonic : String)
deriving DecidableEq, Repr

/-- The state after reset of a block with configuration `c` (R34, R240); nothing presented, nothing answered. -/
def State.resetWith (c : Cfg) : State where
  rng := Config.defaultSeed
  level := 1#7
  maxhp := 0#16
  maxmp := 0#16
  sex := 0#1
  pers := 0#8
  job := 0#8
  power := 0x0000#16
  speed := 0x0000#16
  vitality := 0x0000#16
  intelligence := 0x0000#16
  luck := 0x0000#16
  fault := 0#1
  cause := 0#8
  pending := []
  resp := none
  cfg := c
  unsaid := 0

/-- The state after reset. The configuration is the spec's synthetic table T0: DESIGN CHOICE, unsafe (log 2). -/
def State.reset : State := State.resetWith T0.cfg

end Sys2Proof.Machine
end

