-- ==== Sys2Proof/Machine/Ops.lean ====
section
/-!
DEFINITION. The operations the commands share: reading a ROM byte, the Character registers, answering, raising a
fault and refusing (60_exceptions.md R214), applying reset (R240).
-/

namespace Sys2Proof

/-- What an address that a `Memory` does not list reads as. DESIGN CHOICE (log 6). -/
def Memory.unlisted : Byte := 0#8

/-- The byte at an address. -/
def Memory.read : Memory → Nat → Byte
  | [], _ => Memory.unlisted
  | (k, b) :: m, a => if k = a then b else Memory.read m a

/-- The canonical form: addresses strictly rising, no entry equal to what an unlisted address reads as. -/
abbrev Memory.wf (m : Memory) : Prop :=
  m.Pairwise (fun c d => c.1 < d.1) ∧ ∀ c ∈ m, c.2 ≠ Memory.unlisted

namespace Machine

/-! ## The two ROM spaces -/

/-- The address spaces of R50. -/
inductive Space where
  | jobrom
  | persrom
deriving DecidableEq, Repr

/-- The size of a space in bytes (R51). -/
def spaceSize (c : Cfg) : Space → Nat
  | .jobrom => Config.jobRecordBytes * c.njobs
  | .persrom => Config.persRecordBytes * c.npers

/-- The contents of a space. -/
def spaceContents (c : Cfg) : Space → Memory
  | .jobrom => c.jobrom
  | .persrom => c.persrom

/-- Why a computation ends early: it raises a fault of the spec, or it reads a ROM address that does not exist. -/
inductive Abandon where
  | raised (cause : Cause)
  | absentAddress
deriving DecidableEq, Repr

/-- `MemRead(space, addr, 1)` (R54). Outside every record there is no byte (log 6). -/
def memRead (c : Cfg) (space : Space) (addr : Nat) : Except Abandon Byte :=
  if addr < spaceSize c space then .ok ((spaceContents c space).read addr) else .error .absentAddress

/-! ## The attribute registers -/

/-- `ATTR[a]` (R26). -/
def State.attr (s : State) : Attr → Fix88
  | .power => s.power
  | .speed => s.speed
  | .vitality => s.vitality
  | .intelligence => s.intelligence
  | .luck => s.luck

/-- `ATTR[a] <- v` (R26). -/
def State.setAttr (s : State) (a : Attr) (v : Fix88) : State :=
  match a with
  | .power => { s with power := v }
  | .speed => { s with speed := v }
  | .vitality => { s with vitality := v }
  | .intelligence => { s with intelligence := v }
  | .luck => { s with luck := v }

/-! ## Answering, raising and refusing -/

/-- `resp <- (OK, v)` (R83). -/
def State.respond (s : State) (data : Word) : State :=
  { s with resp := some ⟨.ok, data⟩ }

/-- The code of a cause (R211). -/
def causeCode : Cause → BitVec 8
  | .mask => 1#8
  | .level => 2#8
  | .table => 3#8
  | .illegal => 4#8

/-- `resp <- (FAULT, zext_32(STATUS.CAUSE))` (R83, R214). Alone it is the answer to a refused command. -/
def State.refuse (s : State) : State :=
  { s with resp := some ⟨.fault, s.cause.setWidth 32⟩ }

/-- The latch of R214: the first fault is recorded, a later one is not. -/
def State.latch (s : State) (c : Cause) : State :=
  if s.fault = 0#1 then { s with cause := causeCode c, fault := 1#1 } else s

/-- `raise Fault(c)` (R214): taking the exception. There is no return from it (R217); only reset leaves the FAULT
state. -/
def State.raiseFault (s : State) (c : Cause) : State := (s.latch c).refuse

/-- The FAULT state accepts no command but `STATUS` (R214): `k` is what the command does outside it. -/
def whenRunning (s : State) (k : Host.Outcome State Fault Refusal) : Host.Outcome State Fault Refusal :=
  if s.fault = 0#1 then k else .next s.refuse

/-- How a command ends: it answers its result, or it raises a fault with nothing else of `s` changed. -/
def complete (s : State) (r : Except Abandon State) : Host.Outcome State Fault Refusal :=
  match r with
  | .ok s' => .next s'
  | .error (.raised c) => .next (s.raiseFault c)
  | .error .absentAddress => .fault .romAddressAbsent

/-- An illegal command word (R90, R91). -/
def illegalCommand (s : State) : Host.Outcome State Fault Refusal :=
  whenRunning s (.next (s.raiseFault .illegal))

/-! ## What the spec leaves unsaid after a late fault -/

/-- RNG and the Character file after a TABLE fault in `LVLUP` (R215, U9): free values, each register within its legal
values (R24, R28). DESIGN CHOICE, safe (log 5). -/
def State.leaveUnsaid (s : State) : State :=
  { s with
    rng := Config.unsaidRng s.unsaid
    level := BitVec.ofNat 7 (1 + Config.unsaidLevel s.unsaid % 99)
    maxhp := Config.unsaidMaxhp s.unsaid
    maxmp := Config.unsaidMaxmp s.unsaid
    sex := Config.unsaidSex s.unsaid
    pers := BitVec.ofNat 8 (Config.unsaidPers s.unsaid % s.cfg.npers)
    job := BitVec.ofNat 8 (Config.unsaidJob s.unsaid % s.cfg.njobs)
    power := Config.unsaidPower s.unsaid
    speed := Config.unsaidSpeed s.unsaid
    vitality := Config.unsaidVitality s.unsaid
    intelligence := Config.unsaidIntelligence s.unsaid
    luck := Config.unsaidLuck s.unsaid
    unsaid := s.unsaid + 1 }

/-! ## Inputs -/

/-- Reset (R240): every piece of state at its reset value; the ROMs, and what the host has yet to present, stay. -/
def State.applyReset (s : State) : State :=
  { State.resetWith s.cfg with pending := s.pending, unsaid := s.unsaid }

/-- The next input, and the state with it taken. -/
def takeInput (s : State) : Option (Input × State) :=
  match s.pending with
  | [] => none
  | i :: rest => some (i, { s with pending := rest })

end Machine
end Sys2Proof
end

