-- ==== Sys2Proof/Machine/FixedPoint.lean ====
section
/-!
DEFINITION. The fixed-point model (41_fixedpoint.md): the conversions between 8.8, 4.4 and 1.7, the saturating
arithmetic, the increment pipe, and the nine `FX_*` commands. Each operation is computed on naturals and narrowed at
the end (R12, R145).
-/

namespace Sys2Proof.Machine

/-! ## Formats and arithmetic -/

/-- `widen44(g) = zext_16(g) << 4` (R134). -/
def widen44 (g : Fix44) : Fix88 := g.setWidth 16 <<< 4

/-- `widen17(f) = zext_16(f) << 1` (R134). -/
def widen17 (f : Fix17) : Fix88 := f.setWidth 16 <<< 1

/-- `from_int(n) = zext_16(n) << 8` (R134). -/
def fromInt (n : Byte) : Fix88 := n.setWidth 16 <<< 8

/-- `trunc88(p) = p[15:8]` (R134). -/
def trunc88 (p : Fix88) : Byte := p.extractLsb' 8 8

/-- `sat_add88(x, y) = min(0xFFFF, x + y)` (R135). -/
def satAdd88 (x y : Fix88) : Fix88 := BitVec.ofNat 16 (min 0xFFFF (x.toNat + y.toNat))

/-- `sat_sub88(x, y) = max(0, x - y)` (R136): subtraction on naturals stops at 0. -/
def satSub88 (x y : Fix88) : Fix88 := BitVec.ofNat 16 (x.toNat - y.toNat)

/-- `mul88(x, y) = min(0xFFFF, (x * y) >> 8)` (R137). -/
def mul88 (x y : Fix88) : Fix88 := BitVec.ofNat 16 (min 0xFFFF ((x.toNat * y.toNat) >>> 8))

/-- `half88(x) = x >> 1` (R138). -/
def half88 (x : Fix88) : Fix88 := x >>> 1

/-- The increment pipe (R143): the raw 4.4 pattern `g` enters as a bit pattern. -/
def growInc (g : Fix44) (r : Byte) (f : Fix17) : Fix88 :=
  let p : BitVec 16 := g.setWidth 16 * r.setWidth 16
  let m : BitVec 16 := (p >>> 3) &&& 0x0FF0#16
  mul88 m (widen17 f)

/-! ## The commands -/

/-- A pure command (R130): it answers `v` and writes nothing. -/
def answerFix (s : State) (v : Fix88) : Host.Outcome State Fault Refusal :=
  whenRunning s <| .next (s.respond (v.setWidth 32))

/-- `FX_ADD x, y` (R135). -/
def execFxAdd (x y : Fix88) (s : State) : Host.Outcome State Fault Refusal := answerFix s (satAdd88 x y)

/-- `FX_SUB x, y` (R136). -/
def execFxSub (x y : Fix88) (s : State) : Host.Outcome State Fault Refusal := answerFix s (satSub88 x y)

/-- `FX_MUL x, y` (R137). -/
def execFxMul (x y : Fix88) (s : State) : Host.Outcome State Fault Refusal := answerFix s (mul88 x y)

/-- `FX_HALF x` (R138). -/
def execFxHalf (x : Fix88) (s : State) : Host.Outcome State Fault Refusal := answerFix s (half88 x)

/-- `FX_W44 g` (R139). -/
def execFxW44 (g : Fix44) (s : State) : Host.Outcome State Fault Refusal := answerFix s (widen44 g)

/-- `FX_W17 f` (R140). -/
def execFxW17 (f : Fix17) (s : State) : Host.Outcome State Fault Refusal := answerFix s (widen17 f)

/-- `FX_TRUNC x` (R141). -/
def execFxTrunc (x : Fix88) (s : State) : Host.Outcome State Fault Refusal :=
  answerFix s ((trunc88 x).setWidth 16)

/-- `FX_FROMINT n` (R142). -/
def execFxFromint (n : Byte) (s : State) : Host.Outcome State Fault Refusal := answerFix s (fromInt n)

/-- `FX_GINC g, r, f` (R144). -/
def execFxGinc (g : Fix44) (r : Byte) (f : Fix17) (s : State) : Host.Outcome State Fault Refusal :=
  answerFix s (growInc g r f)

end Sys2Proof.Machine
end

