-- ==== Sys2Proof/Machine/BitOps.lean ====
section
/-!
DEFINITION. BitOps (40_bitops_rng.md R100 to R102): combinational functions, not commands.
-/

namespace Sys2Proof.Machine

/-- `extract(value, begin, end)` (R100): the bits of the half-open range [b, e), zero elsewhere; the mask is computed
on naturals. The contract `b <= e <= w` is the caller's (U5, log 8). -/
def extract {w : Nat} (value : BitVec w) (b e : Nat) : BitVec w :=
  value &&& BitVec.ofNat w ((2 ^ e - 1) - (2 ^ b - 1))

/-- `range(value, begin, end)` (R101): `extract` shifted down. -/
def rangeBits {w : Nat} (value : BitVec w) (b e : Nat) : BitVec w :=
  extract value b e >>> b

/-- `is_power_of_two(value)` (R102). -/
def isPowerOfTwo {w : Nat} (value : BitVec w) : Bool :=
  value != 0#w && value &&& (value - 1#w) == 0#w

/-- `mask_ok(mask)` (R102), computed in nine bits. -/
def maskOk (mask : Byte) : Bool :=
  isPowerOfTwo (mask.setWidth 9 + 1#9)

end Sys2Proof.Machine
end

