-- ==== Sys2Proof/Machine/Rng.lean ====
section
/-!
DEFINITION. The RNG engine (40_bitops_rng.md): the transition, the three draws, and the commands `RNG_SEED`,
`RNG_READ`, `RAND_U`, `RAND_S`, `RAND_M`.
-/

namespace Sys2Proof.Machine

/-! ## The transition and the draws -/

/-- The byte the transition shifts in: `tmp[15:8]` (R103, C1). `tmp` has at most 19 bits, so 32 hold it. -/
def newByte (state : Word) : Word :=
  let upper16 := rangeBits state 16 32
  let lower16 := rangeBits state 0 16
  let tmp := ((lower16 <<< 2) ^^^ upper16) <<< 1
  rangeBits tmp 8 16

/-- The transition `rng_next` (R103). -/
def rngNext (state : Word) : Word := (state <<< 8) ||| newByte state

/-- `rand_uniform()` (R107): the new state's low byte, and the new state. -/
def randUniform (rng : Word) : Byte × Word :=
  ((rngNext rng).setWidth 8, rngNext rng)

/-- `rand_scaled(upper)` (R108): the product on naturals, floored. -/
def randScaled (upper : Byte) (rng : Word) : Byte × Word :=
  let u := randUniform rng
  (BitVec.ofNat 8 ((u.1.toNat * (upper.toNat + 1)) >>> 8), u.2)

/-- The loop of `rand_msum` (R109): `n` masked draws added to `sum`, in order. -/
def addDraws (mask : Byte) : Nat → Nat → Word → Nat × Word
  | 0, sum, rng => (sum, rng)
  | n + 1, sum, rng =>
    let u := randUniform rng
    addDraws mask n (sum + (u.1 &&& mask).toNat) u.2

/-- `rand_msum(offset, mask)` (R109): the mask is checked before any transition. -/
def randMsum (offset mask : Byte) (rng : Word) : Except Cause (Byte × Word) :=
  if maskOk mask then
    let d := addDraws mask Config.multinomialDraws offset.toNat rng
    .ok (BitVec.ofNat 8 d.1, d.2)
  else .error .mask

/-! ## The commands -/

/-- `RNG_SEED imm32` (R105). -/
def execRngSeed (imm32 : Word) (s : State) : Host.Outcome State Fault Refusal :=
  whenRunning s <| .next ({ s with rng := imm32 }.respond 0#32)

/-- `RNG_READ` (R106). -/
def execRngRead (s : State) : Host.Outcome State Fault Refusal :=
  whenRunning s <| .next (s.respond s.rng)

/-- `RAND_U` (R107). -/
def execRandU (s : State) : Host.Outcome State Fault Refusal :=
  whenRunning s <|
    let u := randUniform s.rng
    .next ({ s with rng := u.2 }.respond (u.1.setWidth 32))

/-- `RAND_S upper` (R108). -/
def execRandS (upper : Byte) (s : State) : Host.Outcome State Fault Refusal :=
  whenRunning s <|
    let u := randScaled upper s.rng
    .next ({ s with rng := u.2 }.respond (u.1.setWidth 32))

/-- `RAND_M offset, mask` (R109). -/
def execRandM (offset mask : Byte) (s : State) : Host.Outcome State Fault Refusal :=
  whenRunning s <|
    match randMsum offset mask s.rng with
    | .ok d => .next ({ s with rng := d.2 }.respond (d.1.setWidth 32))
    | .error c => .next (s.raiseFault c)

end Sys2Proof.Machine
end

