-- ==== Sys2Proof/Machine/Operands.lean ====
section
/-!
DEFINITION. The operand forms: register and attribute fields (10_state.md R23, 42_growth.md R160), and reading and
writing a Character register by name (42_growth.md R176, R177).
-/

namespace Sys2Proof.Machine

/-- The attribute an index names (R26, R160); none above 4 (R92). -/
def attrOfField (b : Byte) : Option Attr :=
  match b.toNat with
  | 0 => some .power
  | 1 => some .speed
  | 2 => some .vitality
  | 3 => some .intelligence
  | 4 => some .luck
  | _ => none

/-- The index of an attribute (R26, R160). -/
def attrIndex : Attr → Nat
  | .power => 0
  | .speed => 1
  | .vitality => 2
  | .intelligence => 3
  | .luck => 4

/-- The register a `reg` field names (R23); none for 6, 7 and 13 to 255 (R92). -/
def regOfField (b : Byte) : Option CReg :=
  match b.toNat with
  | 0 => some .level
  | 1 => some .maxhp
  | 2 => some .maxmp
  | 3 => some .sex
  | 4 => some .pers
  | 5 => some .job
  | 8 => some (.attr .power)
  | 9 => some (.attr .speed)
  | 10 => some (.attr .vitality)
  | 11 => some (.attr .intelligence)
  | 12 => some (.attr .luck)
  | _ => none

/-- `zext_32(c[reg])` (R177). -/
def State.readReg (s : State) : CReg → Word
  | .level => s.level.setWidth 32
  | .maxhp => s.maxhp.setWidth 32
  | .maxmp => s.maxmp.setWidth 32
  | .sex => s.sex.setWidth 32
  | .pers => s.pers.setWidth 32
  | .job => s.job.setWidth 32
  | .attr a => (s.attr a).setWidth 32

/-- The check and the write of `CH_WR` (R176): a value outside the register's legal values is refused, never
truncated (R82). -/
def State.writeReg (s : State) (r : CReg) (val : BitVec 16) : Except Cause State :=
  match r with
  | .level => if val.toNat < 1 ∨ 99 < val.toNat then .error .level else .ok { s with level := val.setWidth 7 }
  | .maxhp => .ok { s with maxhp := val }
  | .maxmp => .ok { s with maxmp := val }
  | .sex => if 1 < val.toNat then .error .table else .ok { s with sex := val.setWidth 1 }
  | .pers => if s.cfg.npers ≤ val.toNat then .error .table else .ok { s with pers := val.setWidth 8 }
  | .job => if s.cfg.njobs ≤ val.toNat then .error .table else .ok { s with job := val.setWidth 8 }
  | .attr a => .ok (s.setAttr a val)

end Sys2Proof.Machine
end

