-- ==== Sys2Proof/Machine/Tables.lean ====
section
/-!
DEFINITION. The queries of the Growth Tables (20_memory.md R55 to R58), over the ROM layouts of R52 and R53.
-/

namespace Sys2Proof.Machine

/-- `initial_attr(j, a, s)` (R55). -/
def initialAttr (c : Cfg) (j : Nat) (a : Attr) (sex : Nat) : Except Abandon Byte :=
  memRead c .jobrom (128 * j + 2 * attrIndex a + sex)

/-- `BOUND[a][k]` and `INC[a][k]` of job `j` (R52). -/
def bandBound (c : Cfg) (j : Nat) (a : Attr) (k : Nat) : Except Abandon Byte :=
  memRead c .jobrom (128 * j + 16 + 16 * attrIndex a + 2 * k)

def bandInc (c : Cfg) (j : Nat) (a : Attr) (k : Nat) : Except Abandon Byte :=
  memRead c .jobrom (128 * j + 17 + 16 * attrIndex a + 2 * k)

/-- The loop of `increment` (R56) over the band slots `ks`, in slot order: a zero bound, or no slot left, is a missing
table entry. -/
def scanBands (c : Cfg) (j l : Nat) (a : Attr) : List Nat → Except Abandon Fix44
  | [] => .error (.raised .table)
  | k :: ks => do
    let b ← bandBound c j a k
    if b = 0#8 then .error (.raised .table)
    else if l ≤ b.toNat then bandInc c j a k
    else scanBands c j l a ks

/-- `increment(j, l, a)` (R56). -/
def increment (c : Cfg) (j l : Nat) (a : Attr) : Except Abandon Fix44 :=
  scanBands c j l a (List.range Config.bandSlots)

/-- `growth_factor(p, a)` (R57). -/
def growthFactor (c : Cfg) (p : Nat) (a : Attr) : Except Abandon Fix17 :=
  memRead c .persrom (8 * p + attrIndex a)

/-- `phys(j)` (R58): bit 0 of the record's FLAGS. -/
def phys (c : Cfg) (j : Nat) : Except Abandon (BitVec 1) := do
  let flags ← memRead c .jobrom (128 * j + 10)
  return flags.extractLsb' 0 1

end Sys2Proof.Machine
end

