-- ==== Sys2Proof/Machine/Growth.lean ====
section
/-!
DEFINITION. The growth engine (42_growth.md): the range computation, the level-up sequencer, job change, personality
change, and the Character access commands.
-/

namespace Sys2Proof.Machine

/-! ## The range computation -/

/-- `LF[a]` (R160). -/
def lowerFactor : Attr → Nat
  | .power => 70
  | .speed => 70
  | .vitality => 60
  | .intelligence => 50
  | .luck => 50

/-- The accumulator of `sum_incr` (R161): the increments of levels 2 to `l` in ascending order, saturating. -/
def accumulate (c : Cfg) (j l : Nat) (a : Attr) : Except Abandon Fix88 :=
  (List.range' 2 (l - 1)).foldlM
    (fun acc t => do
      let g ← increment c j t a
      return satAdd88 acc (widen44 g))
    0x0000#16

/-- `sum_incr(j, l, a)` (R161): truncated once, at the end. -/
def sumIncr (c : Cfg) (j l : Nat) (a : Attr) : Except Abandon Byte := do
  let acc ← accumulate c j l a
  return trunc88 acc

/-- `standard(j, l, a)` (R162): the male-reference initial value, whatever `SEX` holds. -/
def standard (c : Cfg) (j l : Nat) (a : Attr) : Except Abandon Byte := do
  let init ← initialAttr c j a 0
  let sum ← sumIncr c j l a
  return BitVec.ofNat 8 (min 255 (init.toNat + sum.toNat))

/-- `upper` from `standard` (R163). -/
def upperOf (std : Byte) (l : Nat) : Byte := BitVec.ofNat 8 (min 255 (std.toNat + 15 + 2 * l))

/-- `lower` from `standard` (R164). -/
def lowerOf (std : Byte) (a : Attr) : Byte := BitVec.ofNat 8 (std.toNat * lowerFactor a / 100 + 1)

/-- The triple of R165. -/
structure AttrRange where
  lower    : Byte
  standard : Byte
  upper    : Byte
deriving DecidableEq, Repr

/-- `range_attr(j, l, a)` (R165). -/
def rangeAttr (c : Cfg) (j l : Nat) (a : Attr) : Except Abandon AttrRange := do
  let std ← standard c j l a
  return ⟨lowerOf std a, std, upperOf std l⟩

/-! ## Level-up -/

/-- `ahead(cur, up)` (R168), by the parameter `AHEAD_CMP`. -/
def ahead (c : Cfg) (cur : Fix88) (up : Byte) : Bool :=
  match c.aheadCmp with
  | .full => decide ((fromInt up).toNat < cur.toNat)
  | .floor => decide (up.toNat < (trunc88 cur).toNat)

/-- The increment of an attribute ahead of its curve (step 2b of R167): one transition. -/
def aheadInc (c : Cfg) (rng : Word) : Fix88 × Word :=
  let u := randUniform rng
  ((u.1 &&& 1#8).setWidth 16 * c.aheadUnit, u.2)

/-- The increment on the normal path (step 2c of R167): sixteen transitions. -/
def normalInc (c : Cfg) (job pers L : Nat) (a : Attr) (rng : Word) : Except Abandon (Fix88 × Word) := do
  let g ← increment c job L a
  let r ← (randMsum Config.levelUpOffset Config.levelUpMask rng).mapError .raised
  let f ← growthFactor c pers a
  return (growInc g r.1 f, r.2)

/-- Steps 2d and 2e of R167: the saturating add, then the clamp up to `lower`. -/
def addAndClamp (cur inc : Fix88) (lo : Byte) : Fix88 :=
  let res := satAdd88 cur inc
  if res.toNat < (fromInt lo).toNat then fromInt lo else res

/-- Step 2 of R167: the increment of an attribute at `cur`, ahead of the curve or not. -/
def attrInc (c : Cfg) (job pers L : Nat) (a : Attr) (cur : Fix88) (up : Byte) (rng : Word) :
    Except Abandon (Fix88 × Word) :=
  if ahead c cur up then .ok (aheadInc c rng) else normalInc c job pers L a rng

/-- `grow_one(a, L)` (R167). -/
def growOne (L : Nat) (s : State) (a : Attr) : Except Abandon State := do
  let rg ← rangeAttr s.cfg s.job.toNat L a
  let d ← attrInc s.cfg s.job.toNat s.pers.toNat L a (s.attr a) rg.upper s.rng
  return { s.setAttr a (addAndClamp (s.attr a) d.1 rg.lower) with rng := d.2 }

/-- The order in which a level-up treats the attributes (R170, R14). -/
def attrOrder : List Attr := [.power, .speed, .vitality, .intelligence, .luck]

/-- `2 * trunc88(v)` (R169), at most 510. -/
def twiceTrunc (v : Fix88) : BitVec 16 := BitVec.ofNat 16 (2 * (trunc88 v).toNat)

/-- `derive()` (R169): from the new Vitality and, for a job that is not physical, the new Intelligence. -/
def derive (s : State) : Except Abandon State := do
  let ph ← phys s.cfg s.job.toNat
  let s' := { s with maxhp := twiceTrunc (s.attr .vitality) }
  return if ph = 0#1 then { s' with maxmp := twiceTrunc (s'.attr .intelligence) } else s'

/-- Steps 1 to 3 of R170, with the answer. -/
def levelUp (s : State) : Except Abandon State := do
  let L := s.level.toNat + 1
  let grown ← attrOrder.foldlM (growOne L) s
  let derived ← derive { grown with level := BitVec.ofNat 7 L }
  return derived.respond (BitVec.ofNat 32 L)

/-- `LVLUP` (R170). On a missing band RNG and the Character file are left unsaid (R215, log 5). -/
def execLvlup (s : State) : Host.Outcome State Fault Refusal :=
  whenRunning s <|
    if 99 ≤ s.level.toNat then .next (s.raiseFault .level) else complete s.leaveUnsaid (levelUp s)

/-! ## Job change and personality change -/

/-- `JOBCHG job` (R173). -/
def execJobchg (job : Byte) (s : State) : Host.Outcome State Fault Refusal :=
  whenRunning s <|
    if s.cfg.njobs ≤ job.toNat then .next (s.raiseFault .table)
    else
      .next
        ({ s with
            level := 1#7
            maxhp := s.maxhp >>> 1
            maxmp := s.maxmp >>> 1
            power := half88 s.power
            speed := half88 s.speed
            vitality := half88 s.vitality
            intelligence := half88 s.intelligence
            luck := half88 s.luck
            job := job }.respond 0#32)

/-- `PERSCHG pers` (R174). -/
def execPerschg (pers : Byte) (s : State) : Host.Outcome State Fault Refusal :=
  whenRunning s <|
    if s.cfg.npers ≤ pers.toNat then .next (s.raiseFault .table)
    else .next ({ s with pers := pers }.respond 0#32)

/-! ## Range query and Character access -/

/-- `zext_32(up ‖ std ‖ lo)` (R175). -/
def packRange (r : AttrRange) : Word := 0#8 ++ r.upper ++ r.standard ++ r.lower

/-- `RANGE level, attr` (R175), its checks in the order of R216. -/
def execRange (level attr : Byte) (s : State) : Host.Outcome State Fault Refusal :=
  whenRunning s <|
    match attrOfField attr with
    | none => .next (s.raiseFault .illegal)
    | some a =>
      if level.toNat < 1 ∨ 99 < level.toNat then .next (s.raiseFault .level)
      else
        complete s do
          let r ← rangeAttr s.cfg s.job.toNat level.toNat a
          return s.respond (packRange r)

/-- `CH_WR reg, val` (R176). -/
def execChWr (reg : Byte) (val : BitVec 16) (s : State) : Host.Outcome State Fault Refusal :=
  whenRunning s <|
    match regOfField reg with
    | none => .next (s.raiseFault .illegal)
    | some r =>
      match s.writeReg r val with
      | .ok s' => .next (s'.respond 0#32)
      | .error c => .next (s.raiseFault c)

/-- `CH_RD reg` (R177). -/
def execChRd (reg : Byte) (s : State) : Host.Outcome State Fault Refusal :=
  whenRunning s <|
    match regOfField reg with
    | none => .next (s.raiseFault .illegal)
    | some r => .next (s.respond (s.readReg r))

end Sys2Proof.Machine
end

