-- ==== Sys2Proof/Machine/Flags.lean ====
section
/-!
DEFINITION. The STATUS word (10_state.md R31) and the 33-bit response word (30_encoding.md R83). There are no
condition codes (R31): FAULT and CAUSE are all the flags, and `State.latch` alone sets them.
-/

namespace Sys2Proof.Machine

/-- The STATUS word: bits 31:16 zero, CAUSE in 15:8, bits 7:1 zero, FAULT in bit 0 (R31). -/
def State.statusWord (s : State) : Word := 0#16 ++ s.cause ++ 0#7 ++ s.fault

/-- The status bit of a response (R83). -/
def statusBit : ResponseStatus → BitVec 1
  | .ok => 0#1
  | .fault => 1#1

/-- The response of R83 as one 33-bit word. The rule gives a pair and no place for the status bit: DESIGN CHOICE, it is
bit 32, above `data` (log 13). -/
def responseWord (r : Response) : BitVec 33 := statusBit r.status ++ r.data

end Sys2Proof.Machine
end

