-- ==== Sys2Proof/Machine/System.lean ====
section
/-!
DEFINITION. The system command `STATUS` (43_system.md).
-/

namespace Sys2Proof.Machine

/-- `STATUS` (R200): the one command accepted in the FAULT state too (R214). -/
def execStatus (s : State) : Host.Outcome State Fault Refusal :=
  .next (s.respond s.statusWord)

end Sys2Proof.Machine
end

