-- ==== Sys2Proof/Machine/Dispatch.lean ====
section
/-!
DEFINITION. One command, by its meaning.
-/

namespace Sys2Proof.Machine

/-- The meaning of a command. -/
def exec (i : Instr) (s : State) : Host.Outcome State Fault Refusal :=
  match i with
  | .status => Sys2Proof.Machine.execStatus s
  | .rngSeed imm32 => Sys2Proof.Machine.execRngSeed imm32 s
  | .rngRead => Sys2Proof.Machine.execRngRead s
  | .randU => Sys2Proof.Machine.execRandU s
  | .randS upper => Sys2Proof.Machine.execRandS upper s
  | .randM offset mask => Sys2Proof.Machine.execRandM offset mask s
  | .fxAdd x y => Sys2Proof.Machine.execFxAdd x y s
  | .fxSub x y => Sys2Proof.Machine.execFxSub x y s
  | .fxMul x y => Sys2Proof.Machine.execFxMul x y s
  | .fxHalf x => Sys2Proof.Machine.execFxHalf x s
  | .fxW44 g => Sys2Proof.Machine.execFxW44 g s
  | .fxW17 f => Sys2Proof.Machine.execFxW17 f s
  | .fxTrunc x => Sys2Proof.Machine.execFxTrunc x s
  | .fxFromint n => Sys2Proof.Machine.execFxFromint n s
  | .fxGinc g r f => Sys2Proof.Machine.execFxGinc g r f s
  | .chWr reg val => Sys2Proof.Machine.execChWr reg val s
  | .chRd reg => Sys2Proof.Machine.execChRd reg s
  | .lvlup => Sys2Proof.Machine.execLvlup s
  | .jobchg job => Sys2Proof.Machine.execJobchg job s
  | .perschg pers => Sys2Proof.Machine.execPerschg pers s
  | .range level attr => Sys2Proof.Machine.execRange level attr s

end Sys2Proof.Machine
end

