-- ==== Sys2Proof/Machine/Sequencer.lean ====
section
/-!
DEFINITION. What one step does with the next input: a command word is decoded and executed (30_encoding.md R84), reset
is applied (70_reset_and_hazards.md R240), and with nothing presented nothing changes (20_memory.md R66).
-/

namespace Sys2Proof.Machine

/-- One command word: its meaning, or an illegal command. -/
def runWord (w : CommandWord) (s : State) : Host.Outcome State Fault Refusal :=
  match decode w with
  | .ok i => exec i s
  | .error _ => illegalCommand s

/-- One input, or none. -/
def runNext (s : State) : Host.Outcome State Fault Refusal :=
  match takeInput s with
  | none => .next s
  | some (.reset, s') => .next s'.applyReset
  | some (.command w, s') => runWord w s'

/-- The command word of the `nbits` low bits of `w`, bit 0 being `cmd[0]`. -/
def tableWord (nbits w : Nat) : CommandWord := BitVec.ofNat 40 (w % 2 ^ nbits)

/-- `s` with a command word presented before everything else. -/
def State.present (s : State) (w : CommandWord) : State :=
  { s with pending := .command w :: s.pending }

end Sys2Proof.Machine
end

