-- ==== Sys2Proof/Machine/Step.lean ====
section
/-!
DEFINITION. The step function, and how a command comes to be the next one (log 3).
-/

namespace Sys2Proof.Machine

/-- One step: the next input, if any. -/
def step (s : State) : Host.Outcome State Fault Refusal := runNext s

/-- `s` with that word as the next command the host presents (log 3). -/
def State.withFetchWord (s : State) (nbits w : Nat) : State := s.present (tableWord nbits w)

end Sys2Proof.Machine
end

