-- ==== Sys2Proof/Machine/Assembler.lean ====
section
/-!
DEFINITION. The text form of a command (30_encoding.md R94) and the pseudo-commands (R95). Notation only: the machine
never calls it. What the spec leaves open in the text (white space, a number too large for its field) is log 11.
-/

namespace Sys2Proof

/-! ## The text form (R94) -/

/-- A blank between the parts of a line. -/
def isBlankChar (c : Char) : Bool := c == ' ' || c == '\t'

/-- A line without the blanks at its ends. -/
def trimBlanks (cs : List Char) : List Char :=
  ((cs.dropWhile isBlankChar).reverse.dropWhile isBlankChar).reverse

/-- The operands of a line: what stands between commas. -/
def splitCommas (cs : List Char) : List (List Char) :=
  cs.foldr (fun c parts =>
    match c, parts with
    | ',', _ => [] :: parts
    | _, [] => [[c]]
    | _, p :: ps => (c :: p) :: ps) [[]]

/-- The hexadecimal digits, each at the place its value says. Small letters are read too (log 11). -/
def hexCapitals : List Char := "0123456789ABCDEF".toList
def hexSmall : List Char := "0123456789abcdef".toList

/-- The value of a digit: its place in either list. -/
def digitValue (c : Char) : Option Nat := (hexCapitals.idxOf? c).or (hexSmall.idxOf? c)

/-- Digits in a base, the most significant first. -/
def readDigits (base : Nat) (acc : Nat) : List Char → Option Nat
  | [] => some acc
  | c :: cs => do
    let d ← digitValue c
    if d < base then readDigits base (base * acc + d) cs else none

/-- A number in decimal or `0x` hexadecimal (R94). -/
def readNumber : List Char → Option Nat
  | [] => none
  | ['0', 'x'] => none
  | '0' :: 'x' :: ds => readDigits 16 0 ds
  | ds => readDigits 10 0 ds

/-- The attribute names of R94 with their indices. -/
def attrNames : List (String × Nat) :=
  [("ATTR0", 0), ("ATTR1", 1), ("ATTR2", 2), ("ATTR3", 3), ("ATTR4", 4)] ++
  [("POWER", 0), ("SPEED", 1), ("VITALITY", 2), ("INTELLIGENCE", 3), ("LUCK", 4)]

/-- The register names of R94 with the indices of R23. -/
def regNames : List (String × Nat) :=
  [("LEVEL", 0), ("MAXHP", 1), ("MAXMP", 2), ("SEX", 3), ("PERS", 4), ("JOB", 5)] ++
  attrNames.map (fun n => (n.1, n.2 + 8))

/-- An operand: a number that fits `width` bits, or one of the names its field admits. -/
def readOperand (names : List (String × Nat)) (width : Nat) (cs : List Char) : Option Nat :=
  match names.find? (fun n => n.1.toList == cs) with
  | some n => some n.2
  | none => do
    let v ← readNumber cs
    if v < 2 ^ width then some v else none

/-- The operands of each format in text order `a, b, c` / `x, y` / `reg, val` / `imm32` (R94): the names each admits,
and its width (R81). -/
def Format.operands (mnemonic : String) : Format → List (List (String × Nat) × Nat)
  | .N => []
  | .W => [([], 32)]
  | .B => [([], 8)]
  | .BB => [([], 8), (if mnemonic == "RANGE" then attrNames else [], 8)]
  | .BBB => [([], 8), ([], 8), ([], 8)]
  | .H => [([], 16)]
  | .HH => [([], 16), ([], 16)]
  | .R => [(regNames, 8)]
  | .RV => [(regNames, 8), ([], 16)]

/-- Operand values placed in `arg` (R81). -/
def Format.place : Format → List Nat → Option Word
  | .N, [] => some 0#32
  | .W, [v] => some (BitVec.ofNat 32 v)
  | .B, [a] => some (argB (BitVec.ofNat 8 a))
  | .BB, [a, b] => some (argBB (BitVec.ofNat 8 a) (BitVec.ofNat 8 b))
  | .BBB, [a, b, c] => some (argBBB (BitVec.ofNat 8 a) (BitVec.ofNat 8 b) (BitVec.ofNat 8 c))
  | .H, [x] => some (argH (BitVec.ofNat 16 x))
  | .HH, [x, y] => some (argHH (BitVec.ofNat 16 x) (BitVec.ofNat 16 y))
  | .R, [reg] => some (argRV (BitVec.ofNat 8 reg) 0#16)
  | .RV, [reg, val] => some (argRV (BitVec.ofNat 8 reg) (BitVec.ofNat 16 val))
  | _, _ => none

/-- Operand texts read one by one. -/
def readOperands : List (List (String × Nat) × Nat) → List (List Char) → Option (List Nat)
  | [], [] => some []
  | k :: ks, t :: ts => do
    let v ← readOperand k.1 k.2 (trimBlanks t)
    let vs ← readOperands ks ts
    return v :: vs
  | _, _ => none

/-- The command word of one line of text, its comment left out (R94). -/
def assemble (line : String) : Option CommandWord := do
  let code := trimBlanks (line.toList.takeWhile (· != ';'))
  let name := code.takeWhile (fun c => !isBlankChar c)
  let rest := trimBlanks (code.drop name.length)
  let row ← opcodeMap.find? (fun r => r.mnemonic.toList == name)
  let vals ← readOperands (row.format.operands row.mnemonic) (if rest.isEmpty then [] else splitCommas rest)
  let arg ← row.format.place vals
  return row.opcode ++ arg

/-! ## Pseudo-commands (R95) -/

/-- The pseudo-commands of R95. `cloneRestore` takes the word `cloneSave` returned. -/
inductive Pseudo where
  | rngDefault
  | cloneSave
  | cloneRestore (saved : Word)
  | chInit (level hp mp pow spd vit int luk sex pers job : BitVec 16)
  | randBit
deriving DecidableEq, Repr

/-- The commands a pseudo-command stands for, in order (R95). -/
def Pseudo.expand : Pseudo → List Instr
  | .rngDefault => [.rngSeed 0xAAE21259#32]
  | .cloneSave => [.rngRead]
  | .cloneRestore saved => [.rngSeed saved]
  | .chInit level hp mp pow spd vit int luk sex pers job =>
    [.chWr 5 job, .chWr 4 pers, .chWr 3 sex, .chWr 0 level, .chWr 1 hp, .chWr 2 mp,
     .chWr 8 pow, .chWr 9 spd, .chWr 10 vit, .chWr 11 int, .chWr 12 luk]
  | .randBit => [.randU]

end Sys2Proof
end

