-- ==== Sys2Proof/Safety.lean ====
section
/-!
DEFINITION. What claims rest on: a legal configuration and the tables' preconditions (R8, R59), a legal state
(10_state.md), a good state (60_exceptions.md R219), and what a frame leaves alone.
-/

namespace Sys2Proof

/-- The constraints of R8 on a configuration, and ROM contents in canonical form inside their spaces (R51). -/
structure Cfg.Legal (c : Cfg) : Prop where
  njobs_pos : 1 ≤ c.njobs
  njobs_le : c.njobs ≤ 256
  npers_pos : 1 ≤ c.npers
  npers_le : c.npers ≤ 256
  jobrom_wf : c.jobrom.wf
  persrom_wf : c.persrom.wf
  jobrom_inside : ∀ cell ∈ c.jobrom, cell.1 < 128 * c.njobs
  persrom_inside : ∀ cell ∈ c.persrom, cell.1 < 8 * c.npers

/-- The byte `BOUND[a][k]` of job `j` (R52). -/
def Cfg.bound (c : Cfg) (j : Nat) (a : Attr) (k : Nat) : Nat :=
  (c.jobrom.read (128 * j + 16 + 16 * Machine.attrIndex a + 2 * k)).toNat

/-- The byte `INC[a][k]` of job `j` (R52). -/
def Cfg.inc (c : Cfg) (j : Nat) (a : Attr) (k : Nat) : Byte :=
  c.jobrom.read (128 * j + 17 + 16 * Machine.attrIndex a + 2 * k)

/-- The byte `INIT[a][0]` of job `j` (R52). -/
def Cfg.init (c : Cfg) (j : Nat) (a : Attr) : Byte :=
  c.jobrom.read (128 * j + 2 * Machine.attrIndex a)

/-- The byte `FACTOR[a]` of personality `p` (R53). -/
def Cfg.factor (c : Cfg) (p : Nat) (a : Attr) : Byte :=
  c.persrom.read (8 * p + Machine.attrIndex a)

/-- The flag `PHYS` of job `j` (R52). -/
def Cfg.physBit (c : Cfg) (j : Nat) : BitVec 1 :=
  (c.jobrom.read (128 * j + 10)).extractLsb' 0 1

/-- Every level 2 to 99 of job `j` is covered by a band before the first zero bound (R59 (a), as far as the block
depends on it: `increment` never faults). -/
def Cfg.Covers (c : Cfg) (j : Nat) : Prop :=
  ∀ a : Attr, ∀ l, 2 ≤ l → l ≤ 99 →
    ∃ k, k < 8 ∧ l ≤ c.bound j a k ∧ ∀ k' < k, c.bound j a k' ≠ 0

/-- The tables of every job cover every level (R59 (a), (c)). -/
def Cfg.TablesComplete (c : Cfg) : Prop := ∀ j < c.njobs, c.Covers j

namespace Machine

/-- The codes `STATUS.CAUSE` may hold (R211). -/
abbrev causeCodeLegal (c : BitVec 8) : Prop := c.toNat ≤ 4

/-- A legal state: `LEVEL` in 1..99 (R24), `PERS` and `JOB` name records (R28), `CAUSE` is a code of R211 and is
`NONE` exactly while `FAULT` is 0 (R31), the configuration is legal (R8). -/
structure State.Legal (s : State) : Prop where
  level_ge : 1 ≤ s.level.toNat
  level_le : s.level.toNat ≤ 99
  pers_lt : s.pers.toNat < s.cfg.npers
  job_lt : s.job.toNat < s.cfg.njobs
  cause_code : causeCodeLegal s.cause
  cause_none : s.cause = 0#8 ↔ s.fault = 0#1
  cfg_legal : s.cfg.Legal

/-- `s` after `raise Fault(c)` with code `code`, from a good state: FAULT, CAUSE and the response, nothing else (R214). -/
def State.afterFault (s : State) (code : BitVec 8) : State :=
  { s with fault := 1#1, cause := code, resp := some ⟨.fault, code.setWidth 32⟩ }

/-- `s` after a command that answers `(OK, data)` and writes nothing (R83). -/
def State.afterOk (s : State) (data : Nat) : State :=
  { s with resp := some ⟨.ok, BitVec.ofNat 32 data⟩ }

/-- A good state: no fault has occurred (R219). -/
def State.Good (s : State) : Prop := s.fault = 0#1

/-- The Character file and RNG of two states agree (R23, R20). -/
def State.SameCharacterAndRng (s t : State) : Prop :=
  t.rng = s.rng ∧ t.level = s.level ∧ t.maxhp = s.maxhp ∧ t.maxmp = s.maxmp ∧ t.sex = s.sex ∧
  t.pers = s.pers ∧ t.job = s.job ∧ ∀ a, t.attr a = s.attr a

/-- An illegal command (R84, R90, R91): the word decodes to nothing, and outside the FAULT state presenting it raises
`ILLEGAL` and changes nothing else. -/
def IllegalWord (w : CommandWord) : Prop :=
  (∃ e, decode w = .error e) ∧ ∀ s : State, s.fault = 0#1 → step (s.present w) = .next (s.afterFault 4#8)

/-- What lies outside the block's registers agrees: the configuration with its ROMs, what the host has yet to present,
the free-value index. -/
def State.SameOutside (s t : State) : Prop :=
  t.cfg = s.cfg ∧ t.pending = s.pending ∧ t.unsaid = s.unsaid

/-- The sum of R109 over the states the generator passes through: `offset` plus sixteen masked low bytes, modulo
256. -/
def multinomialSum (offset mask : Byte) (rng : Word) : Byte :=
  BitVec.ofNat 8 (offset.toNat + ∑ k ∈ Finset.range 16, ((rngNext^[k + 1] rng).setWidth 8 &&& mask).toNat)

/-- Step 2 of a level-up (R167) as a relation: attribute `a` of a character with job `j` and personality `p`, growing
to level `L`, goes from `cur` to `new` while the generator goes from `rng` to `rng'`. -/
def GrowStep (c : Cfg) (j p L : Nat) (a : Attr) (cur : Fix88) (rng : Word) (new : Fix88) (rng' : Word) : Prop :=
  ∃ rg, rangeAttr c j L a = .ok rg ∧
    ((ahead c cur rg.upper = true ∧ rng' = rngNext rng ∧
        new.toNat = max (min 0xFFFF (cur.toNat + (rngNext rng).toNat % 2 * c.aheadUnit.toNat)) (256 * rg.lower.toNat)) ∨
     (ahead c cur rg.upper = false ∧ rng' = rngNext^[16] rng ∧
        ∃ g f, increment c j L a = .ok g ∧ growthFactor c p a = .ok f ∧
          new.toNat = max (min 0xFFFF (cur.toNat + (growInc g (multinomialSum 136#8 31#8 rng) f).toNat))
            (256 * rg.lower.toNat)))

/-- A completed level-up (R170) as a relation: the five attributes grow in order over one generator, the derived
statistics come from the new attributes (R169), the new level is answered, nothing else changes. -/
structure LevelUpTo (s t : State) : Prop where
  level : t.level.toNat = s.level.toNat + 1
  grown : ∃ r1 r2 r3 r4,
    GrowStep s.cfg s.job.toNat s.pers.toNat (s.level.toNat + 1) .power s.power s.rng t.power r1 ∧
    GrowStep s.cfg s.job.toNat s.pers.toNat (s.level.toNat + 1) .speed s.speed r1 t.speed r2 ∧
    GrowStep s.cfg s.job.toNat s.pers.toNat (s.level.toNat + 1) .vitality s.vitality r2 t.vitality r3 ∧
    GrowStep s.cfg s.job.toNat s.pers.toNat (s.level.toNat + 1) .intelligence s.intelligence r3 t.intelligence r4 ∧
    GrowStep s.cfg s.job.toNat s.pers.toNat (s.level.toNat + 1) .luck s.luck r4 t.luck t.rng
  maxhp : t.maxhp.toNat = 2 * (t.vitality.toNat / 256)
  maxmp : (s.cfg.physBit s.job.toNat = 0#1 → t.maxmp.toNat = 2 * (t.intelligence.toNat / 256)) ∧
    (s.cfg.physBit s.job.toNat = 1#1 → t.maxmp = s.maxmp)
  resp : t.resp = some ⟨.ok, BitVec.ofNat 32 (s.level.toNat + 1)⟩
  sex : t.sex = s.sex
  pers : t.pers = s.pers
  job : t.job = s.job
  fault : t.fault = s.fault
  cause : t.cause = s.cause
  outside : t.cfg = s.cfg ∧ t.pending = s.pending ∧ t.unsaid = s.unsaid

/-- Presenting a list of command words in turn, one step each, stopping at a stop. -/
def runWords : List CommandWord → State → Host.Outcome State Fault Refusal
  | [], s => .next s
  | w :: ws, s =>
    match step (s.present w) with
    | .next s' => runWords ws s'
    | .fault f => .fault f
    | .refused r => .refused r

/-- The responses to a list of command words presented in turn (R83, R245). -/
def responses : List CommandWord → State → List (Option Response)
  | [], _ => []
  | w :: ws, s =>
    match step (s.present w) with
    | .next s' => s'.resp :: responses ws s'
    | .fault _ => []
    | .refused _ => []

end Machine
end Sys2Proof
end

