-- ==== Sys2Proof/WellFormed.lean ====
section
/-!
DEFINITION. Which commands are well formed: every field selects something (30_encoding.md R92). An ill-formed command
has an encoding and a meaning (it raises `Fault(ILLEGAL)`).
-/

namespace Sys2Proof

/-- A `reg` field that names a register of R23: 0 to 5 or 8 to 12. -/
def regFieldLegal (reg : Byte) : Bool :=
  decide (reg.toNat ≤ 5 ∨ (8 ≤ reg.toNat ∧ reg.toNat ≤ 12))

/-- An attribute field that names an attribute: 0 to 4 (R92). -/
def attrFieldLegal (attr : Byte) : Bool :=
  decide (attr.toNat ≤ 4)

/-- The check of R92, one line per constructor. -/
def Instr.wellFormed : Instr → Bool
  | .status => true
  | .rngSeed _ => true
  | .rngRead => true
  | .randU => true
  | .randS _ => true
  | .randM _ _ => true
  | .fxAdd _ _ => true
  | .fxSub _ _ => true
  | .fxMul _ _ => true
  | .fxHalf _ => true
  | .fxW44 _ => true
  | .fxW17 _ => true
  | .fxTrunc _ => true
  | .fxFromint _ => true
  | .fxGinc _ _ _ => true
  | .chWr reg _ => regFieldLegal reg
  | .chRd reg => regFieldLegal reg
  | .lvlup => true
  | .jobchg _ => true
  | .perschg _ => true
  | .range _ attr => attrFieldLegal attr

end Sys2Proof
end

