-- ==== Sys2Proof/Certificates/Slice0/Obligations.lean ====
section
/-!
DEFINITION. The statements for the provers, from the numbered rules of the spec.
-/

section
open Sys2Proof Sys2Proof.Machine

/-! ## Encoding (30_encoding.md) -/

/-- R80, R81, R84, R85: every command, with every operand value, is read back from its own word. -/
def Obligations.DecodeOfEncodeIsTheCommand : Prop :=
  ∀ i : Instr, decode (encode i) = .ok i

/-- R80, R81, R84, R85: a word has one meaning, so encoding what it decodes to gives the word back. -/
def Obligations.EncodeOfDecodeIsTheWord : Prop :=
  ∀ (w : CommandWord) (i : Instr), decode w = .ok i → encode i = w

/-- R84: a word decodes to a row exactly when `(cmd & mask) == match`, and the masks make the rows disjoint. -/
def Obligations.DecodeFollowsTheTableRows : Prop :=
  ∀ w : CommandWord,
    (∀ r ∈ opcodeMap, w &&& r.mask = r.matchWord → decode w = .ok (r.build (argOf w))) ∧
    ((∀ r ∈ opcodeMap, w &&& r.mask ≠ r.matchWord) → IllegalWord w) ∧
    (∀ r ∈ opcodeMap, ∀ r' ∈ opcodeMap,
      w &&& r.mask = r.matchWord → w &&& r'.mask = r'.matchWord → r.mnemonic = r'.mnemonic)

/-- R85 with the numbers of opcode_table.json: name, match and mask of the 21 rows. -/
def Obligations.OpcodeMapIsTheTable : Prop :=
  opcodeMap.map (fun r => (r.mnemonic, r.matchWord, r.mask)) =
    [("STATUS", 0x0100000000#40, 0xFFFFFFFFFF#40), ("RNG_SEED", 0x1000000000#40, 0xFF00000000#40),
     ("RNG_READ", 0x1100000000#40, 0xFFFFFFFFFF#40), ("RAND_U", 0x1400000000#40, 0xFFFFFFFFFF#40),
     ("RAND_S", 0x1500000000#40, 0xFFFFFFFF00#40), ("RAND_M", 0x1600000000#40, 0xFFFFFF0000#40)] ++
    [("FX_ADD", 0x2000000000#40, 0xFF00000000#40), ("FX_SUB", 0x2100000000#40, 0xFF00000000#40),
     ("FX_MUL", 0x2200000000#40, 0xFF00000000#40), ("FX_HALF", 0x2300000000#40, 0xFFFFFF0000#40),
     ("FX_W44", 0x2400000000#40, 0xFFFFFFFF00#40), ("FX_W17", 0x2500000000#40, 0xFFFFFFFF00#40),
     ("FX_TRUNC", 0x2600000000#40, 0xFFFFFF0000#40), ("FX_FROMINT", 0x2700000000#40, 0xFFFFFFFF00#40),
     ("FX_GINC", 0x2800000000#40, 0xFFFF000000#40)] ++
    [("CH_WR", 0x3000000000#40, 0xFFFF000000#40), ("CH_RD", 0x3100000000#40, 0xFFFF00FFFF#40),
     ("LVLUP", 0x3200000000#40, 0xFFFFFFFFFF#40), ("JOBCHG", 0x3300000000#40, 0xFFFFFFFF00#40),
     ("PERSCHG", 0x3400000000#40, 0xFFFFFFFF00#40), ("RANGE", 0x3500000000#40, 0xFFFFFF0000#40)]

/-- R81, R82: the fields of each format are the stated bits of `arg`, unsigned, shown on one command of each format
that has fields. -/
def Obligations.FieldsAreTheStatedBits : Prop :=
  ∀ arg : Word,
    decode (0x10#8 ++ arg) = .ok (.rngSeed arg) ∧
    (arg.toNat < 2 ^ 8 → decode (0x15#8 ++ arg) = .ok (.randS (BitVec.ofNat 8 arg.toNat))) ∧
    (arg.toNat < 2 ^ 16 →
      decode (0x16#8 ++ arg) = .ok (.randM (BitVec.ofNat 8 arg.toNat) (BitVec.ofNat 8 (arg.toNat / 2 ^ 8)))) ∧
    (arg.toNat < 2 ^ 24 →
      decode (0x28#8 ++ arg) =
        .ok (.fxGinc (BitVec.ofNat 8 arg.toNat) (BitVec.ofNat 8 (arg.toNat / 2 ^ 8))
          (BitVec.ofNat 8 (arg.toNat / 2 ^ 16)))) ∧
    (arg.toNat < 2 ^ 16 → decode (0x23#8 ++ arg) = .ok (.fxHalf (BitVec.ofNat 16 arg.toNat))) ∧
    decode (0x21#8 ++ arg) =
      .ok (.fxSub (BitVec.ofNat 16 arg.toNat) (BitVec.ofNat 16 (arg.toNat / 2 ^ 16))) ∧
    (arg.toNat < 2 ^ 24 → arg.toNat % 2 ^ 16 = 0 →
      decode (0x31#8 ++ arg) = .ok (.chRd (BitVec.ofNat 8 (arg.toNat / 2 ^ 16)))) ∧
    (arg.toNat < 2 ^ 24 →
      decode (0x30#8 ++ arg) =
        .ok (.chWr (BitVec.ofNat 8 (arg.toNat / 2 ^ 16)) (BitVec.ofNat 16 arg.toNat)))

/-- R90: every word with an unassigned opcode is an illegal command: outside the FAULT state it raises `ILLEGAL` and
changes nothing else. -/
def Obligations.UnassignedOpcodesAreIllegal : Prop :=
  ∀ (op : Byte) (arg : Word),
    (op.toNat = 0x00 ∨ (0x02 ≤ op.toNat ∧ op.toNat ≤ 0x0F) ∨ op.toNat = 0x12 ∨ op.toNat = 0x13 ∨
      (0x17 ≤ op.toNat ∧ op.toNat ≤ 0x1F) ∨ (0x29 ≤ op.toNat ∧ op.toNat ≤ 0x2F) ∨ 0x36 ≤ op.toNat) →
    decode (op ++ arg) = .error (.unassignedOpcode op) ∧
    ∀ s : State, s.Good → step (s.present (op ++ arg)) = .next (s.afterFault 4#8)

/-- R91: an assigned opcode with a one in a reserved bit of its format is an illegal command. -/
def Obligations.ReservedBitsAreIllegal : Prop :=
  ∀ r ∈ opcodeMap, ∀ arg : Word, arg &&& r.format.reservedMask ≠ 0#32 →
    decode (r.opcode ++ arg) = .error (.reservedBits r.mnemonic arg) ∧
    ∀ s : State, s.Good → step (s.present (r.opcode ++ arg)) = .next (s.afterFault 4#8)

/-- R92, R216: a `reg` field that names no register and an attribute field above 4 raise `ILLEGAL`, before any other
check. -/
def Obligations.FieldsThatSelectNothingAreIllegal : Prop :=
  ∀ s : State, s.Good →
    (∀ (reg : Byte) (val : BitVec 16), reg.toNat = 6 ∨ reg.toNat = 7 ∨ 13 ≤ reg.toNat →
      exec (.chWr reg val) s = .next (s.afterFault 4#8) ∧ exec (.chRd reg) s = .next (s.afterFault 4#8)) ∧
    (∀ level attr : Byte, 4 < attr.toNat → exec (.range level attr) s = .next (s.afterFault 4#8))

/-- R85, R94: a few words written out from the opcode map decode to the commands they stand for, and the examples of
R94 assemble to theirs. -/
def Obligations.SampleWordsDecode : Prop :=
  decode 0x0100000000#40 = .ok .status ∧
  decode 0x1600001F88#40 = .ok (.randM 136#8 31#8) ∧
  decode 0x2000800100#40 = .ok (.fxAdd 0x0100#16 0x0080#16) ∧
  decode 0x2800B3AD18#40 = .ok (.fxGinc 0x18#8 0xAD#8 0xB3#8) ∧
  decode 0x30000A1300#40 = .ok (.chWr 10#8 0x1300#16) ∧
  decode 0x3500000216#40 = .ok (.range 22#8 2#8) ∧
  assemble "RAND_M 136, 31" = some 0x1600001F88#40 ∧
  assemble "CH_WR VITALITY, 0x1300" = some 0x30000A1300#40 ∧
  assemble "FX_ADD 0x0100, 0x0080" = some 0x2000800100#40

/-- R95: `CH_INIT` builds the Character its record describes: from any good state, with legal values, its eleven words
leave all eleven registers at those values and RNG and STATUS as they were. -/
def Obligations.ChInitBuildsTheCharacter : Prop :=
  ∀ (s : State) (level hp mp pow spd vit int luk sex pers job : BitVec 16),
    s.Good → 1 ≤ level.toNat → level.toNat ≤ 99 → sex.toNat ≤ 1 → pers.toNat < s.cfg.npers → s.cfg.npers ≤ 256 →
    job.toNat < s.cfg.njobs → s.cfg.njobs ≤ 256 →
    ∃ t, runWords ((Pseudo.chInit level hp mp pow spd vit int luk sex pers job).expand.map encode) s = .next t ∧
      t.level.toNat = level.toNat ∧ t.maxhp = hp ∧ t.maxmp = mp ∧ t.power = pow ∧ t.speed = spd ∧ t.vitality = vit ∧
      t.intelligence = int ∧ t.luck = luk ∧ t.sex.toNat = sex.toNat ∧ t.pers.toNat = pers.toNat ∧
      t.job.toNat = job.toNat ∧ t.rng = s.rng ∧ t.fault = s.fault ∧ t.cause = s.cause ∧ s.SameOutside t

/-! ## The step, reset, and legal states (10_state.md, 70_reset_and_hazards.md) -/

/-- A step runs the decoded command (R60, R84): the next input is taken, then a command word that decodes to `i` is
`exec i`, one that decodes to nothing raises `ILLEGAL`, and reset is applied (R240); with nothing presented nothing
changes (R66). That inputs stand in a list and that the idle step leaves the state are the model's choices (log 3). -/
def Obligations.StepRunsTheDecodedCommand : Prop :=
  ∀ s : State,
    (∀ w rest i, s.pending = .command w :: rest → decode w = .ok i → step s = exec i { s with pending := rest }) ∧
    (∀ w rest e, s.pending = .command w :: rest → decode w = .error e → s.Good →
      step s = .next ({ s with pending := rest }.afterFault 4#8)) ∧
    (∀ rest, s.pending = .reset :: rest → step s = .next { s with pending := rest }.applyReset) ∧
    (s.pending = [] → step s = .next s)

/-- R240: reset, applied in any state, sets every piece of state to its reset value and does not touch the ROMs. -/
def Obligations.ResetSetsEveryRegister : Prop :=
  ∀ s : State,
    step { s with pending := .reset :: s.pending } = .next s.applyReset ∧
    s.applyReset.rng = 0xAAE21259#32 ∧ s.applyReset.level = 1#7 ∧ s.applyReset.maxhp = 0#16 ∧
    s.applyReset.maxmp = 0#16 ∧ s.applyReset.sex = 0#1 ∧ s.applyReset.pers = 0#8 ∧ s.applyReset.job = 0#8 ∧
    (∀ a, s.applyReset.attr a = 0x0000#16) ∧ s.applyReset.statusWord = 0x00000000#32 ∧ s.applyReset.cfg = s.cfg

/-- R241: what the first commands after reset answer, whatever the tables hold. -/
def Obligations.FirstAnswersAfterReset : Prop :=
  ∀ c : Cfg,
    exec .rngRead (State.resetWith c) = .next ((State.resetWith c).afterOk 0xAAE21259) ∧
    exec (.chRd 0#8) (State.resetWith c) = .next ((State.resetWith c).afterOk 1) ∧
    (∀ reg : Byte, (1 ≤ reg.toNat ∧ reg.toNat ≤ 5) ∨ (8 ≤ reg.toNat ∧ reg.toNat ≤ 12) →
      exec (.chRd reg) (State.resetWith c) = .next ((State.resetWith c).afterOk 0)) ∧
    exec .status (State.resetWith c) = .next ((State.resetWith c).afterOk 0) ∧
    exec .randU (State.resetWith c) =
      .next ({ State.resetWith c with rng := 0xE21259C7#32 }.afterOk 0xC7)

/-- R24, R28, R31: every step keeps a legal state legal. The configuration's constraints (R8) are part of it. -/
def Obligations.StepKeepsLegalStates : Prop :=
  ∀ s t : State, s.Legal → step s = .next t → t.Legal

/-- The state after reset is legal, for every legal configuration and for the model's own (log 2). -/
def Obligations.ResetStateIsLegal : Prop :=
  (∀ c : Cfg, c.Legal → (State.resetWith c).Legal) ∧ State.reset.Legal

/-- R83, R252: from every legal state a step answers; if it took a command word, there is a response. No legal state
stops the machine. -/
def Obligations.LegalStatesAlwaysAnswer : Prop :=
  ∀ s : State, s.Legal →
    ∃ t, step s = .next t ∧ t.pending = s.pending.tail ∧
      ∀ w rest, s.pending = .command w :: rest → t.resp.isSome = true

/-- R50: no step changes the ROMs, or any other part of the configuration. -/
def Obligations.TablesNeverChange : Prop :=
  ∀ s t : State, step s = .next t → t.cfg = s.cfg

/-- R20, R23: which commands write which register. For a command that completes from a good state without a fault, each
register is as it was unless the command is listed as a writer of it. -/
def Obligations.OnlyListedCommandsWriteRegisters : Prop :=
  ∀ (i : Instr) (s t : State), s.Good → exec i s = .next t → t.Good →
    ((∀ v, i ≠ .rngSeed v) → i ≠ .randU → (∀ u, i ≠ .randS u) → (∀ o m, i ≠ .randM o m) → i ≠ .lvlup →
      t.rng = s.rng) ∧
    ((∀ r v, i ≠ .chWr r v) → i ≠ .lvlup → (∀ j, i ≠ .jobchg j) →
      t.level = s.level ∧ t.maxhp = s.maxhp ∧ t.maxmp = s.maxmp ∧ ∀ a, t.attr a = s.attr a) ∧
    ((∀ r v, i ≠ .chWr r v) → t.sex = s.sex) ∧
    ((∀ r v, i ≠ .chWr r v) → (∀ p, i ≠ .perschg p) → t.pers = s.pers) ∧
    ((∀ r v, i ≠ .chWr r v) → (∀ j, i ≠ .jobchg j) → t.job = s.job) ∧
    t.cause = s.cause ∧ s.SameOutside t

/-- R27: `SEX` has no effect on any operation: two states that differ in it alone take the same step under every
command but the one that reads it, with the same response, and still differ in it alone. -/
def Obligations.SexHasNoEffect : Prop :=
  ∀ (i : Instr) (s t : State) (x : BitVec 1), (∀ reg, i = .chRd reg → reg ≠ 3#8) → exec i s = .next t →
    ∃ t', exec i { s with sex := x } = .next t' ∧ t'.resp = t.resp ∧ { t' with sex := t.sex } = t

/-! ## Faults (60_exceptions.md) -/

/-- R214, C8: fault entry latches the cause of the first fault and answers it; a later one changes nothing but the
response. In the FAULT state a well-formed `STATUS` executes and every other word, legal or not, is refused: it changes
nothing but the response. -/
def Obligations.FaultEntryAndTheFaultState : Prop :=
  ∀ s : State,
    (∀ c : Cause, s.fault = 0#1 →
      s.raiseFault c =
        { s with fault := 1#1, cause := causeCode c, resp := some ⟨.fault, (causeCode c).setWidth 32⟩ }) ∧
    (∀ c : Cause, s.fault = 1#1 → s.raiseFault c = { s with resp := some ⟨.fault, s.cause.setWidth 32⟩ }) ∧
    (∀ w : CommandWord, s.fault = 1#1 →
      step (s.present w) =
        if w = 0x0100000000#40 then .next (s.afterOk (256 * s.cause.toNat + 1))
        else .next { s with resp := some ⟨.fault, s.cause.setWidth 32⟩ })

/-- R217: no sequence of command words leaves the FAULT state, changes the recorded cause, or touches anything but the
response. -/
def Obligations.FaultStateIsAbsorbing : Prop :=
  ∀ (ws : List CommandWord) (s : State), s.fault = 1#1 →
    ∃ t, runWords ws s = .next t ∧ t.fault = 1#1 ∧ t.cause = s.cause ∧ s.SameCharacterAndRng t ∧ s.SameOutside t

/-- R215: in the FAULT state no response depends on RNG, the Character file or the tables: two blocks with the same
cause answer every command sequence alike. -/
def Obligations.FaultStateHidesTheCharacter : Prop :=
  ∀ (ws : List CommandWord) (s t : State), s.fault = 1#1 → t.fault = 1#1 → s.cause = t.cause →
    responses ws s = responses ws t

/-- R215: a command that faults, `LVLUP` below level 99 apart, has changed no state but STATUS. -/
def Obligations.FaultsArePrecise : Prop :=
  ∀ (i : Instr) (s t : State), s.Good → exec i s = .next t → t.fault = 1#1 →
    (i = .lvlup → s.level.toNat = 99) → t = s.afterFault t.cause

/-- R212: which command can raise which cause. -/
def Obligations.CausesByCommand : Prop :=
  ∀ (i : Instr) (s t : State), s.Good → exec i s = .next t → t.fault = 1#1 →
    (t.cause = 1#8 ∧ ∃ o m, i = .randM o m) ∨
    (t.cause = 2#8 ∧ ((∃ v, i = .chWr 0#8 v) ∨ i = .lvlup ∨ ∃ l a, i = .range l a)) ∨
    (t.cause = 3#8 ∧
      ((∃ v, i = .chWr 3#8 v ∨ i = .chWr 4#8 v ∨ i = .chWr 5#8 v) ∨ i = .lvlup ∨ (∃ j, i = .jobchg j) ∨
        (∃ p, i = .perschg p) ∨ ∃ l a, i = .range l a)) ∨
    (t.cause = 4#8 ∧ ((∃ r v, i = .chWr r v) ∨ (∃ r, i = .chRd r) ∨ ∃ l a, i = .range l a) ∧ i.wellFormed = false)

/-- R83: a FAULT response carries STATUS.CAUSE as it stands after the command, in its low byte, and zeros above. -/
def Obligations.FaultResponsesCarryTheCause : Prop :=
  ∀ (s t : State) (w : CommandWord), step (s.present w) = .next t →
    ∃ r, t.resp = some r ∧ (r.status = .fault → t.fault = 1#1 ∧ r.data.toNat = t.cause.toNat)

/-! ## The system command (43_system.md) -/

/-- R200: `STATUS` answers FAULT in bit 0 and CAUSE in bits 15:8, in every state, and writes nothing; with a reserved
bit set it is an illegal command, and in the FAULT state refused. -/
def Obligations.StatusAnswersTheLatch : Prop :=
  decode (0x01#8 ++ 0#32) = .ok .status ∧
  (∀ arg : Word, arg ≠ 0#32 → IllegalWord (0x01#8 ++ arg) ∧
    ∀ s : State, s.fault = 1#1 →
      step (s.present (0x01#8 ++ arg)) = .next { s with resp := some ⟨.fault, s.cause.setWidth 32⟩ }) ∧
  ∀ s : State, exec .status s = .next (s.afterOk (256 * s.cause.toNat + s.fault.toNat))

/-! ## BitOps and the RNG engine (40_bitops_rng.md) -/

/-- R100, R101: the bits of `extract` and of `range`, inside their contract, at every width. -/
def Obligations.ExtractAndRangeSelectBits : Prop :=
  ∀ (w : Nat) (v : BitVec w) (b e : Nat), b ≤ e → e ≤ w →
    (∀ i, (extract v b e).getLsbD i = (v.getLsbD i && decide (b ≤ i ∧ i < e))) ∧
    (rangeBits v b e).toNat = v.toNat / 2 ^ b % 2 ^ (e - b)

/-- R102: `is_power_of_two` at every width, as written and as what it tells, and the nine legal masks. -/
def Obligations.LegalMasksAreTheNine : Prop :=
  (∀ (w : Nat) (v : BitVec w),
    (isPowerOfTwo v = true ↔ v ≠ 0#w ∧ v &&& (v - 1#w) = 0#w) ∧ (isPowerOfTwo v = true ↔ ∃ k, v.toNat = 2 ^ k)) ∧
  (∀ m : Byte, (maskOk m = true ↔ m &&& (m + 1#8) = 0#8) ∧ (maskOk m = true ↔ ∃ k, k ≤ 8 ∧ m.toNat = 2 ^ k - 1))

/-- R103: the transition, on naturals as the rule writes it. -/
def Obligations.TransitionOnNaturals : Prop :=
  ∀ state : Word,
    (rngNext state).toNat =
      (state.toNat <<< 8) % 2 ^ 32 |||
        ((((state.toNat % 2 ^ 16) <<< 2) ^^^ (state.toNat / 2 ^ 16)) <<< 1) / 2 ^ 8 % 2 ^ 8

/-- R104: the closed form, linearity, and the fixed point 0. -/
def Obligations.TransitionClosedForm : Prop :=
  (∀ state : Word,
    rngNext state = state.extractLsb' 0 24 ++ (state.extractLsb' 5 8 ^^^ state.extractLsb' 23 8)) ∧
  (∀ x y : Word, rngNext (x ^^^ y) = rngNext x ^^^ rngNext y) ∧
  rngNext 0#32 = 0#32

/-- R105, R106: `RNG_SEED` loads the state word, any word; `RNG_READ` answers it and writes nothing; neither performs a
transition. -/
def Obligations.RngSeedLoadsAndRngReadAnswers : Prop :=
  ∀ s : State, s.Good →
    (∀ v : Word, decode (0x10#8 ++ v) = .ok (.rngSeed v) ∧
      exec (.rngSeed v) s = .next ({ s with rng := v }.afterOk 0)) ∧
    decode (0x11#8 ++ 0#32) = .ok .rngRead ∧ (∀ arg : Word, arg ≠ 0#32 → IllegalWord (0x11#8 ++ arg)) ∧
    exec .rngRead s = .next (s.afterOk s.rng.toNat)

/-- R107: `RAND_U` performs one transition and answers the new state's low byte. -/
def Obligations.RandUAnswersTheNewLowByte : Prop :=
  ∀ s : State, s.Good →
    decode (0x14#8 ++ 0#32) = .ok .randU ∧ (∀ arg : Word, arg ≠ 0#32 → IllegalWord (0x14#8 ++ arg)) ∧
    exec .randU s = .next ({ s with rng := rngNext s.rng }.afterOk ((rngNext s.rng).toNat % 2 ^ 8))

/-- R108: `RAND_S` performs one transition and answers the floored scaled byte, which never exceeds `upper`. -/
def Obligations.RandSScalesTheDraw : Prop :=
  ∀ (upper : Byte) (s : State), s.Good →
    decode (0x15#8 ++ upper.setWidth 32) = .ok (.randS upper) ∧
    (∀ arg : Word, 2 ^ 8 ≤ arg.toNat → IllegalWord (0x15#8 ++ arg)) ∧
    exec (.randS upper) s =
      .next ({ s with rng := rngNext s.rng }.afterOk ((rngNext s.rng).toNat % 2 ^ 8 * (upper.toNat + 1) / 2 ^ 8)) ∧
    (rngNext s.rng).toNat % 2 ^ 8 * (upper.toNat + 1) / 2 ^ 8 ≤ upper.toNat

/-- R109: `RAND_M` with a legal mask performs sixteen transitions and answers the masked sum modulo 256; with any other
mask it raises `MASK` and RNG has not advanced. -/
def Obligations.RandMSumsSixteenDraws : Prop :=
  ∀ (offset mask : Byte) (s : State), s.Good →
    decode (0x16#8 ++ (0#16 ++ mask ++ offset)) = .ok (.randM offset mask) ∧
    (∀ arg : Word, 2 ^ 16 ≤ arg.toNat → IllegalWord (0x16#8 ++ arg)) ∧
    ((∃ k, k ≤ 8 ∧ mask.toNat = 2 ^ k - 1) →
      exec (.randM offset mask) s =
        .next ({ s with rng := rngNext^[16] s.rng }.afterOk
          ((offset.toNat + ∑ k ∈ Finset.range 16, ((rngNext^[k + 1] s.rng).toNat % 2 ^ 8 &&& mask.toNat)) % 256))) ∧
    ((¬ ∃ k, k ≤ 8 ∧ mask.toNat = 2 ^ k - 1) → exec (.randM offset mask) s = .next (s.afterFault 1#8))

/-- R111: how many transitions a completed command performs: `RNG_SEED` none (it loads its operand), `RAND_U` and
`RAND_S` one, `RAND_M` sixteen (none if it faults), `LVLUP` between 5 and 80, every other command none. -/
def Obligations.TransitionsPerCommand : Prop :=
  ∀ (i : Instr) (s t : State), s.Good → s.Legal → exec i s = .next t →
    (∀ v, i = .rngSeed v → t.rng = v) ∧ (i = .randU → t.rng = rngNext s.rng) ∧
    (∀ u, i = .randS u → t.rng = rngNext s.rng) ∧
    (∀ o m, i = .randM o m → t.rng = if t.fault = 1#1 then s.rng else rngNext^[16] s.rng) ∧
    (i = .lvlup → t.fault = 0#1 → ∃ n, 5 ≤ n ∧ n ≤ 80 ∧ t.rng = rngNext^[n] s.rng) ∧
    ((∀ v, i ≠ .rngSeed v) → i ≠ .randU → (∀ u, i ≠ .randS u) → (∀ o m, i ≠ .randM o m) → i ≠ .lvlup →
      t.rng = s.rng)

/-- R21, R106: the word `RNG_READ` answers is the whole state of the generator: loaded into any other block by
`RNG_SEED`, it makes every sequence of RNG commands answer there as in the first block. -/
def Obligations.CloneReplaysTheStream : Prop :=
  ∀ (s t t' : State) (d : Word) (is : List Instr), s.Good → t.Good → exec .rngRead s = .next (s.afterOk d.toNat) →
    exec (.rngSeed d) t = .next t' →
    (∀ i ∈ is, i = .rngRead ∨ i = .randU ∨ (∃ u, i = .randS u) ∨ ∃ o m, i = .randM o m) →
    responses (is.map encode) s = responses (is.map encode) t'

/-- R248: state 0 is absorbing: no number of transitions leaves it, every draw is 0 and `RAND_M` answers its offset. -/
def Obligations.StateZeroIsAbsorbing : Prop :=
  (∀ n, rngNext^[n] 0#32 = 0#32) ∧
  ∀ s : State, s.Good → s.rng = 0#32 →
    exec .randU s = .next (s.afterOk 0) ∧
    (∀ u, exec (.randS u) s = .next (s.afterOk 0)) ∧
    (∀ o m : Byte, maskOk m = true → exec (.randM o m) s = .next (s.afterOk o.toNat))

/-! ## The fixed-point unit (41_fixedpoint.md) -/

/-- R135, R136: `FX_ADD` answers the sum, or 0xFFFF where it does not fit; `FX_SUB` the difference, or 0 where it would
be negative; neither writes anything. -/
def Obligations.FxAddAndFxSubSaturate : Prop :=
  ∀ (x y : Fix88) (s : State), s.Good →
    decode (0x20#8 ++ (y ++ x)) = .ok (.fxAdd x y) ∧
    exec (.fxAdd x y) s = .next (s.afterOk (min 0xFFFF (x.toNat + y.toNat))) ∧
    decode (0x21#8 ++ (y ++ x)) = .ok (.fxSub x y) ∧
    exec (.fxSub x y) s = .next (s.afterOk (if y.toNat ≤ x.toNat then x.toNat - y.toNat else 0))

/-- R137: `FX_MUL` answers the floored product, or 0xFFFF where it does not fit, and writes nothing. -/
def Obligations.FxMulFloorsAndSaturates : Prop :=
  ∀ (x y : Fix88) (s : State), s.Good →
    decode (0x22#8 ++ (y ++ x)) = .ok (.fxMul x y) ∧
    exec (.fxMul x y) s = .next (s.afterOk (min 0xFFFF (x.toNat * y.toNat / 256)))

/-- R138: `FX_HALF` answers the floored half of the pattern and writes nothing. -/
def Obligations.FxHalfFloors : Prop :=
  ∀ (x : Fix88) (s : State), s.Good →
    decode (0x23#8 ++ x.setWidth 32) = .ok (.fxHalf x) ∧
    (∀ arg : Word, 2 ^ 16 ≤ arg.toNat → IllegalWord (0x23#8 ++ arg)) ∧
    exec (.fxHalf x) s = .next (s.afterOk (x.toNat / 2))

/-- R134, R139 to R142: the widenings keep the value, the truncation floors it, and none of the four commands writes
anything. -/
def Obligations.FxConversionsKeepTheValue : Prop :=
  ∀ (b : Byte) (x : Fix88) (s : State), s.Good →
    decode (0x24#8 ++ b.setWidth 32) = .ok (.fxW44 b) ∧ decode (0x25#8 ++ b.setWidth 32) = .ok (.fxW17 b) ∧
    decode (0x26#8 ++ x.setWidth 32) = .ok (.fxTrunc x) ∧ decode (0x27#8 ++ b.setWidth 32) = .ok (.fxFromint b) ∧
    (∀ arg : Word, 2 ^ 8 ≤ arg.toNat →
      IllegalWord (0x24#8 ++ arg) ∧ IllegalWord (0x25#8 ++ arg) ∧ IllegalWord (0x27#8 ++ arg)) ∧
    (∀ arg : Word, 2 ^ 16 ≤ arg.toNat → IllegalWord (0x26#8 ++ arg)) ∧
    exec (.fxW44 b) s = .next (s.afterOk (16 * b.toNat)) ∧
    exec (.fxW17 b) s = .next (s.afterOk (2 * b.toNat)) ∧
    exec (.fxTrunc x) s = .next (s.afterOk (x.toNat / 256)) ∧
    exec (.fxFromint b) s = .next (s.afterOk (256 * b.toNat))

/-- R143, R144: `FX_GINC` answers the increment pipe, computed step by step as the rule writes it, and writes
nothing. -/
def Obligations.FxGincRunsThePipe : Prop :=
  ∀ (g : Fix44) (r : Byte) (f : Fix17) (s : State), s.Good →
    decode (0x28#8 ++ (0#8 ++ f ++ r ++ g)) = .ok (.fxGinc g r f) ∧
    (∀ arg : Word, 2 ^ 24 ≤ arg.toNat → IllegalWord (0x28#8 ++ arg)) ∧
    exec (.fxGinc g r f) s =
      .next (s.afterOk (min 0xFFFF (((g.toNat * r.toNat / 2 ^ 3) &&& 0x0FF0) * (2 * f.toNat) / 2 ^ 8)))

/-- R143 (derived part): the pipe is `(m * f) >> 7` with `m` the product truncated to a 4.4 value whose carry is
dropped; it never saturates. -/
def Obligations.IncrementPipeClosedForm : Prop :=
  ∀ (g : Fix44) (r : Byte) (f : Fix17),
    (growInc g r f).toNat = g.toNat * r.toNat / 2 ^ 7 % 2 ^ 8 * 2 ^ 4 * f.toNat / 2 ^ 7 ∧
    (growInc g r f).toNat ≤ 0x1FC0

/-! ## The tables (20_memory.md) -/

/-- R55, R57, R58: for identifiers that have a record the three plain queries answer the bytes of the layouts. -/
def Obligations.QueriesReadTheirBytes : Prop :=
  ∀ (c : Cfg) (j p : Nat) (a : Attr), j < c.njobs → p < c.npers →
    (∀ s, s ≤ 1 → initialAttr c j a s = .ok (c.jobrom.read (128 * j + 2 * attrIndex a + s))) ∧
    growthFactor c p a = .ok (c.persrom.read (8 * p + attrIndex a)) ∧
    ∃ b, phys c j = .ok b ∧ b.toNat = (c.jobrom.read (128 * j + 10)).toNat % 2

/-- R56, for levels 2 to 99: `increment` answers the increment of the first band whose bound is not below the level, a
zero bound ending the list, and raises `TABLE` exactly where there is none; with bands exhaustive over levels 2 to 99 it
is total there. -/
def Obligations.IncrementIsTheFirstReachingBand : Prop :=
  ∀ (c : Cfg) (j l : Nat) (a : Attr), j < c.njobs → 2 ≤ l → l ≤ 99 →
    (∀ k, k < 8 → (∀ k' ≤ k, c.bound j a k' ≠ 0) → (∀ k' < k, c.bound j a k' < l) → l ≤ c.bound j a k →
      increment c j l a = .ok (c.inc j a k)) ∧
    ((∀ k, k < 8 → (∀ k' ≤ k, c.bound j a k' ≠ 0) → c.bound j a k < l) →
      increment c j l a = .error (.raised .table)) ∧
    (c.Covers j → ∃ k, k < 8 ∧ l ≤ c.bound j a k ∧ (∀ k' < k, c.bound j a k' < l) ∧
      increment c j l a = .ok (c.inc j a k))

/-! ## The growth engine (42_growth.md) -/

/-- R161: the summed increments are the saturating 8.8 sum of the widened increments of levels 2 to `l`, truncated
once; a missing band among those levels passes through. -/
def Obligations.SumOfIncrementsTruncatesOnce : Prop :=
  ∀ (c : Cfg) (j l : Nat) (a : Attr), j < c.njobs →
    (∀ g : Nat → Byte, (∀ t, 2 ≤ t → t ≤ l → increment c j t a = .ok (g t)) →
      ∃ b, sumIncr c j l a = .ok b ∧ b.toNat = min 0xFFFF (∑ t ∈ Finset.Icc 2 l, 16 * (g t).toNat) / 256) ∧
    ((∃ t, 2 ≤ t ∧ t ≤ l ∧ increment c j t a = .error (.raised .table)) →
      sumIncr c j l a = .error (.raised .table))

/-- R160, R162 to R165: the three numbers of a range, from the initial value and the summed increments; a missing band
passes through; at level 1 `standard` is the initial value. -/
def Obligations.RangeFormulas : Prop :=
  ∀ (c : Cfg) (j l : Nat) (a : Attr), j < c.njobs →
    (sumIncr c j l a = .error (.raised .table) → rangeAttr c j l a = .error (.raised .table)) ∧
    (∃ r, rangeAttr c j 1 a = .ok r ∧ r.standard = c.init j a) ∧
    ∀ b : Byte, sumIncr c j l a = .ok b →
    ∃ r, rangeAttr c j l a = .ok r ∧
      r.standard.toNat = min 255 ((c.jobrom.read (128 * j + 2 * attrIndex a)).toNat + b.toNat) ∧
      r.upper.toNat = min 255 (r.standard.toNat + 15 + 2 * l) ∧
      r.lower.toNat =
        r.standard.toNat * (match a with
          | .power => 70 | .speed => 70 | .vitality => 60 | .intelligence => 50 | .luck => 50) / 100 + 1 ∧
      1 ≤ r.lower.toNat ∧ r.lower.toNat ≤ 179

/-- R166, C3: `standard <= upper` always; `lower <= standard` exactly when `standard >= 1`; so both hold wherever the
male-reference initial value is at least 1. -/
def Obligations.RangeInvariantNeedsAPositiveStandard : Prop :=
  ∀ (c : Cfg) (j l : Nat) (a : Attr) (r : AttrRange), j < c.njobs → rangeAttr c j l a = .ok r →
    r.standard.toNat ≤ r.upper.toNat ∧ (r.lower.toNat ≤ r.standard.toNat ↔ 1 ≤ r.standard.toNat) ∧
    (1 ≤ (c.init j a).toNat → r.lower.toNat ≤ r.standard.toNat)

/-- R175: `RANGE` raises `ILLEGAL` for an attribute above 4, then `LEVEL` for a level outside 1..99, then `TABLE` for a
missing band; else it answers the packed range of the job in `JOB`. It writes nothing else. At level 1 it needs no
band. Where bands cover every level (R59) it answers. -/
def Obligations.RangeAnswersThePackedRange : Prop :=
  ∀ (s : State) (level attr : Byte), s.Good → s.job.toNat < s.cfg.njobs →
    decode (0x35#8 ++ (0#16 ++ attr ++ level)) = .ok (.range level attr) ∧
    (∀ arg : Word, 2 ^ 16 ≤ arg.toNat → IllegalWord (0x35#8 ++ arg)) ∧
    (4 < attr.toNat → exec (.range level attr) s = .next (s.afterFault 4#8)) ∧
    (attr.toNat ≤ 4 → level.toNat < 1 ∨ 99 < level.toNat → exec (.range level attr) s = .next (s.afterFault 2#8)) ∧
    ∀ a : Attr, attr.toNat = attrIndex a → 1 ≤ level.toNat → level.toNat ≤ 99 →
      (∀ r, rangeAttr s.cfg s.job.toNat level.toNat a = .ok r →
        exec (.range level attr) s =
          .next (s.afterOk (65536 * r.upper.toNat + 256 * r.standard.toNat + r.lower.toNat))) ∧
      ((∀ r, rangeAttr s.cfg s.job.toNat level.toNat a ≠ .ok r) →
        exec (.range level attr) s = .next (s.afterFault 3#8)) ∧
      (level.toNat = 1 →
        ∃ r, rangeAttr s.cfg s.job.toNat level.toNat a = .ok r ∧ r.standard = s.cfg.init s.job.toNat a) ∧
      (s.cfg.Covers s.job.toNat → ∃ r, rangeAttr s.cfg s.job.toNat level.toNat a = .ok r ∧
        exec (.range level attr) s =
          .next (s.afterOk (65536 * r.upper.toNat + 256 * r.standard.toNat + r.lower.toNat)))

/-- R168: the ahead-of-curve test under each value of `AHEAD_CMP`, its increment, and the parameters' defaults. -/
def Obligations.AheadTestFollowsTheParameter : Prop :=
  ∀ (c : Cfg) (cur : Fix88) (up : Byte) (rng : Word),
    (c.aheadCmp = .full → (ahead c cur up = true ↔ 256 * up.toNat < cur.toNat)) ∧
    (c.aheadCmp = .floor → (ahead c cur up = true ↔ up.toNat < cur.toNat / 256)) ∧
    aheadInc c rng = ((if (rngNext rng).getLsbD 0 then c.aheadUnit else 0#16), rngNext rng) ∧
    Config.defaultAheadCmp = .full ∧ Config.defaultAheadUnit = 0x0100#16

/-- R167, R169, R170: from a legal good state below level 99, where every attribute's range for the new level answers (as
it does with bands that cover every level), `LVLUP` completes: the five attributes grow in order, MAXHP and MAXMP are
derived from them, the new level is answered, and SEX, PERS, JOB and STATUS are as they were. -/
def Obligations.LvlupCompletes : Prop :=
  ∀ s : State, s.Legal → s.Good → s.level.toNat < 99 →
    (s.cfg.Covers s.job.toNat ∨ ∀ a, ∃ r, rangeAttr s.cfg s.job.toNat (s.level.toNat + 1) a = .ok r) →
    ∃ t, exec .lvlup s = .next t ∧ LevelUpTo s t

/-- R170, R215: `LVLUP` at level 99 raises `LEVEL` with nothing else changed; below it, where some attribute's range
meets a missing band, it raises `TABLE`, and what RNG and the Character file then hold is not said. -/
def Obligations.LvlupFaults : Prop :=
  ∀ s : State, s.Legal → s.Good →
    decode (0x32#8 ++ 0#32) = .ok .lvlup ∧ (∀ arg : Word, arg ≠ 0#32 → IllegalWord (0x32#8 ++ arg)) ∧
    (s.level.toNat = 99 → exec .lvlup s = .next (s.afterFault 2#8)) ∧
    (s.level.toNat < 99 → (∃ a, ∀ r, rangeAttr s.cfg s.job.toNat (s.level.toNat + 1) a ≠ .ok r) →
      ∃ t, exec .lvlup s = .next t ∧ t.fault = 1#1 ∧ t.cause = 3#8 ∧ t.resp = some ⟨.fault, 3#32⟩ ∧
        t.cfg = s.cfg ∧ t.pending = s.pending)

/-- R171: a completed `LVLUP` performs `16*n + (5 - n)` transitions, `n` the number of attributes not ahead of their
curve, which the state before decides. -/
def Obligations.LvlupTransitionCount : Prop :=
  ∀ s t : State, s.Legal → s.Good → exec .lvlup s = .next t → t.Good →
    ∃ (up : Attr → Byte) (n : Nat),
      (∀ a, ∃ r, rangeAttr s.cfg s.job.toNat (s.level.toNat + 1) a = .ok r ∧ r.upper = up a) ∧
      n = ((attrOrder.filter fun a => !ahead s.cfg (s.attr a) (up a)).length) ∧
      t.rng = rngNext^[16 * n + (5 - n)] s.rng

/-- R172: under a completed `LVLUP` no attribute decreases, and each ends at or above its lower bound for the new
level. -/
def Obligations.LvlupNeverLowersAnAttribute : Prop :=
  ∀ s t : State, s.Legal → s.Good → exec .lvlup s = .next t → t.Good →
    ∀ a, (s.attr a).toNat ≤ (t.attr a).toNat ∧
      ∃ r, rangeAttr t.cfg t.job.toNat t.level.toNat a = .ok r ∧ r.lower.toNat ≤ (trunc88 (t.attr a)).toNat

/-- R173: `JOBCHG` resets the level to 1, halves MAXHP, MAXMP and every attribute, takes the new job, and leaves SEX,
PERS and RNG; for a job with no record it raises `TABLE` with nothing else changed. -/
def Obligations.JobchgHalvesAndResets : Prop :=
  ∀ (s : State) (j : Byte), s.Good →
    decode (0x33#8 ++ j.setWidth 32) = .ok (.jobchg j) ∧
    (∀ arg : Word, 2 ^ 8 ≤ arg.toNat → IllegalWord (0x33#8 ++ arg)) ∧
    (j.toNat < s.cfg.njobs →
      ∃ t, exec (.jobchg j) s = .next t ∧ t.level = 1#7 ∧ t.maxhp.toNat = s.maxhp.toNat / 2 ∧
        t.maxmp.toNat = s.maxmp.toNat / 2 ∧ (∀ a, (t.attr a).toNat = (s.attr a).toNat / 2) ∧ t.job = j ∧
        t.resp = some ⟨.ok, 0#32⟩ ∧ t.sex = s.sex ∧ t.pers = s.pers ∧ t.rng = s.rng ∧ t.fault = s.fault ∧
        t.cause = s.cause ∧ s.SameOutside t) ∧
    (s.cfg.njobs ≤ j.toNat → exec (.jobchg j) s = .next (s.afterFault 3#8))

/-- R174: `PERSCHG` assigns the personality and nothing else; for one with no record it raises `TABLE`. -/
def Obligations.PerschgAssigns : Prop :=
  ∀ (s : State) (p : Byte), s.Good →
    decode (0x34#8 ++ p.setWidth 32) = .ok (.perschg p) ∧
    (∀ arg : Word, 2 ^ 8 ≤ arg.toNat → IllegalWord (0x34#8 ++ arg)) ∧
    (p.toNat < s.cfg.npers → exec (.perschg p) s = .next ({ s with pers := p }.afterOk 0)) ∧
    (s.cfg.npers ≤ p.toNat → exec (.perschg p) s = .next (s.afterFault 3#8))

/-- R176: `CH_WR`, register by register: a legal value is written and nothing else; any other is refused with the
cause the rule names, never truncated. -/
def Obligations.ChWrChecksAndWrites : Prop :=
  ∀ (s : State) (val : BitVec 16), s.Good →
    (∀ reg : Byte, decode (0x30#8 ++ (0#8 ++ reg ++ val)) = .ok (.chWr reg val)) ∧
    (∀ arg : Word, 2 ^ 24 ≤ arg.toNat → IllegalWord (0x30#8 ++ arg)) ∧
    (1 ≤ val.toNat → val.toNat ≤ 99 →
      exec (.chWr 0#8 val) s = .next ({ s with level := BitVec.ofNat 7 val.toNat }.afterOk 0)) ∧
    (val.toNat < 1 ∨ 99 < val.toNat → exec (.chWr 0#8 val) s = .next (s.afterFault 2#8)) ∧
    exec (.chWr 1#8 val) s = .next ({ s with maxhp := val }.afterOk 0) ∧
    exec (.chWr 2#8 val) s = .next ({ s with maxmp := val }.afterOk 0) ∧
    (val.toNat ≤ 1 → exec (.chWr 3#8 val) s = .next ({ s with sex := BitVec.ofNat 1 val.toNat }.afterOk 0)) ∧
    (1 < val.toNat → exec (.chWr 3#8 val) s = .next (s.afterFault 3#8)) ∧
    (val.toNat < s.cfg.npers →
      exec (.chWr 4#8 val) s = .next ({ s with pers := BitVec.ofNat 8 val.toNat }.afterOk 0)) ∧
    (s.cfg.npers ≤ val.toNat → exec (.chWr 4#8 val) s = .next (s.afterFault 3#8)) ∧
    (val.toNat < s.cfg.njobs →
      exec (.chWr 5#8 val) s = .next ({ s with job := BitVec.ofNat 8 val.toNat }.afterOk 0)) ∧
    (s.cfg.njobs ≤ val.toNat → exec (.chWr 5#8 val) s = .next (s.afterFault 3#8)) ∧
    exec (.chWr 8#8 val) s = .next ({ s with power := val }.afterOk 0) ∧
    exec (.chWr 9#8 val) s = .next ({ s with speed := val }.afterOk 0) ∧
    exec (.chWr 10#8 val) s = .next ({ s with vitality := val }.afterOk 0) ∧
    exec (.chWr 11#8 val) s = .next ({ s with intelligence := val }.afterOk 0) ∧
    exec (.chWr 12#8 val) s = .next ({ s with luck := val }.afterOk 0) ∧
    (∀ reg : Byte, reg.toNat = 6 ∨ reg.toNat = 7 ∨ 13 ≤ reg.toNat →
      exec (.chWr reg val) s = .next (s.afterFault 4#8))

/-- R177: `CH_RD` answers the register, zero-extended, and writes nothing. -/
def Obligations.ChRdAnswersTheRegister : Prop :=
  ∀ s : State, s.Good →
    (∀ reg : Byte, decode (0x31#8 ++ (0#8 ++ reg ++ 0#16)) = .ok (.chRd reg)) ∧
    (∀ arg : Word, 2 ^ 24 ≤ arg.toNat ∨ arg.toNat % 2 ^ 16 ≠ 0 → IllegalWord (0x31#8 ++ arg)) ∧
    exec (.chRd 0#8) s = .next (s.afterOk s.level.toNat) ∧
    exec (.chRd 1#8) s = .next (s.afterOk s.maxhp.toNat) ∧
    exec (.chRd 2#8) s = .next (s.afterOk s.maxmp.toNat) ∧
    exec (.chRd 3#8) s = .next (s.afterOk s.sex.toNat) ∧
    exec (.chRd 4#8) s = .next (s.afterOk s.pers.toNat) ∧
    exec (.chRd 5#8) s = .next (s.afterOk s.job.toNat) ∧
    exec (.chRd 8#8) s = .next (s.afterOk s.power.toNat) ∧
    exec (.chRd 9#8) s = .next (s.afterOk s.speed.toNat) ∧
    exec (.chRd 10#8) s = .next (s.afterOk s.vitality.toNat) ∧
    exec (.chRd 11#8) s = .next (s.afterOk s.intelligence.toNat) ∧
    exec (.chRd 12#8) s = .next (s.afterOk s.luck.toNat) ∧
    (∀ reg : Byte, reg.toNat = 6 ∨ reg.toNat = 7 ∨ 13 ≤ reg.toNat →
      exec (.chRd reg) s = .next (s.afterFault 4#8))

/-- R176, R177: what `CH_WR` accepts for a register of a legal block, `CH_RD` of the same register reads back. -/
def Obligations.ChRdReadsWhatChWrWrote : Prop :=
  ∀ (s t : State) (reg : Byte) (val : BitVec 16), s.Good → s.cfg.Legal → exec (.chWr reg val) s = .next t → t.Good →
    exec (.chRd reg) t = .next (t.afterOk val.toNat)

end
end

