-- ==== Sys2Proof/Laws/BitOps.lean ====
section
/-!
SUPPORT. The bits of `extract` and `rangeBits` (40_bitops_rng.md R100, R101).
-/

namespace Sys2Proof.Machine

/-- Bit `i` of the mask of R100. -/
theorem extractMask_testBit {b e : Nat} (h : b ≤ e) (i : Nat) :
    ((2 ^ e - 1) - (2 ^ b - 1)).testBit i = (decide (b ≤ i) && decide (i < e)) := by
  have hpow : 2 ^ b ≤ 2 ^ e := Nat.pow_le_pow_right (by omega) h
  have hb : 0 < 2 ^ b := Nat.two_pow_pos b
  have hsplit : (2 ^ e - 1) - (2 ^ b - 1) = (2 ^ (e - b) - 1) <<< b := by
    rw [Nat.shiftLeft_eq, Nat.sub_mul, ← Nat.pow_add, Nat.sub_add_cancel h]
    omega
  rw [hsplit, Nat.testBit_shiftLeft, Nat.testBit_two_pow_sub_one]
  by_cases hi : b ≤ i
  · simp only [hi, decide_true, Bool.true_and]
    congr 1
    simp only [eq_iff_iff]; omega
  · simp [hi]

/-- `extract` keeps the bits of [b, e) and clears the others (R100). -/
theorem extract_getLsbD {w : Nat} (v : BitVec w) {b e : Nat} (h : b ≤ e) (i : Nat) :
    (extract v b e).getLsbD i = (v.getLsbD i && (decide (b ≤ i) && decide (i < e))) := by
  by_cases hi : i < w
  · simp only [extract, BitVec.getLsbD_and, BitVec.getLsbD_ofNat, extractMask_testBit h, hi, decide_true,
      Bool.true_and]
  · have hv : v.getLsbD i = false := BitVec.getLsbD_of_ge _ _ (by omega)
    simp only [extract, BitVec.getLsbD_and, hv, Bool.false_and]

/-- `rangeBits` is the slice shifted down (R101). -/
theorem rangeBits_getLsbD {w : Nat} (v : BitVec w) {b e : Nat} (h : b ≤ e) (i : Nat) :
    (rangeBits v b e).getLsbD i = (v.getLsbD (b + i) && decide (b + i < e)) := by
  simp [rangeBits, BitVec.getLsbD_ushiftRight, extract_getLsbD v h]

end Sys2Proof.Machine
end

