-- ==== Sys2Proof/Laws/Decode.lean ====
section
/-!
SUPPORT. The decoder on a word `op ++ arg` (30_encoding.md R84): the row of the opcode, and the reserved bits of each
format as a bound on the argument (R91).
-/

namespace Sys2Proof

@[simp] theorem opcodeOf_append (op : Byte) (arg : Word) : opcodeOf (op ++ arg) = op :=
  BitVec.extractLsb'_append_eq_left (a := op) (b := arg)

@[simp] theorem argOf_append (op : Byte) (arg : Word) : argOf (op ++ arg) = arg :=
  BitVec.extractLsb'_append_eq_right (a := op) (b := arg)

/-- A word is its opcode and its argument (R80). -/
theorem opcodeOf_append_argOf (w : CommandWord) : opcodeOf w ++ argOf w = w :=
  (BitVec.extractLsb'_append_extractLsb'_eq_extractLsb' (x := w) (start₁ := 0) (len₁ := 32) (start₂ := 32)
    (len₂ := 8) rfl).trans BitVec.extractLsb'_eq_self

/-- The row of a listed opcode is that row: no opcode is listed twice (R85). -/
theorem rowOf_opcode {r : Row} (h : r ∈ opcodeMap) : rowOf r.opcode = some r := by
  simp only [opcodeMap, systemAndRngRows, fixedPointRows, growthRows, List.mem_append, List.mem_cons,
    List.not_mem_nil, or_false] at h
  rcases h with ((h | h | h | h | h | h) | (h | h | h | h | h | h | h | h | h)) | (h | h | h | h | h | h) <;>
    subst h <;> rfl

theorem mem_of_rowOf {op : Byte} {r : Row} (h : rowOf op = some r) : r ∈ opcodeMap ∧ r.opcode = op :=
  ⟨List.mem_of_find?_eq_some h, by simpa using List.find?_some h⟩

/-- The decoder on a listed opcode (R84). -/
theorem decode_row {r : Row} (h : r ∈ opcodeMap) (arg : Word) :
    decode (r.opcode ++ arg) =
      if arg &&& r.format.reservedMask ≠ 0#32 then .error (.reservedBits r.mnemonic arg) else .ok (r.build arg) := by
  simp only [decode, opcodeOf_append, argOf_append, rowOf_opcode h]

/-- The decoder on any word: one row and no reserved bit, or an error. -/
theorem decode_ok {w : CommandWord} {i : Instr} (h : decode w = .ok i) :
    ∃ r ∈ opcodeMap, r.opcode = opcodeOf w ∧ argOf w &&& r.format.reservedMask = 0#32 ∧ i = r.build (argOf w) := by
  unfold decode at h
  split at h
  · cases h
  · rename_i r hr
    obtain ⟨hm, ho⟩ := mem_of_rowOf hr
    split at h
    · cases h
    · rename_i hres
      exact ⟨r, hm, ho, not_not.mp hres, by injection h with h; exact h.symm⟩

/-! ## Reserved bits as bounds -/

theorem and_N (arg : Word) : arg &&& Format.reservedMask .N = arg := BitVec.and_allOnes

theorem and_high {k m : Nat} (hi : BitVec m) (lo : BitVec k) :
    (hi ++ lo) &&& (BitVec.allOnes m ++ 0#k) = hi ++ 0#k := by
  rw [BitVec.and_append, BitVec.and_allOnes, BitVec.and_zero]

theorem append_zero_eq_zero {k m : Nat} (hi : BitVec m) (lo : BitVec k) :
    hi ++ 0#k = 0#(m + k) ↔ (hi ++ lo).toNat < 2 ^ k := by
  have hlo := lo.isLt
  have hk := Nat.two_pow_pos k
  rw [← BitVec.toNat_inj]
  simp only [BitVec.toNat_append, BitVec.toNat_ofNat, Nat.zero_mod, Nat.or_zero]
  rw [Nat.shiftLeft_eq, mul_comm, ← Nat.two_pow_add_eq_or_of_lt hlo]
  constructor
  · intro h
    rcases Nat.mul_eq_zero.mp h with h | h
    · omega
    · simp [h, hlo]
  · intro h
    rcases Nat.eq_zero_or_pos hi.toNat with h0 | h0
    · simp [h0]
    · have := Nat.le_mul_of_pos_right (2 ^ k) h0
      omega

/-- No bit at or above `k` is one exactly when the value is below `2 ^ k`. -/
theorem and_high_eq_zero {k m : Nat} (v : BitVec (m + k)) :
    v &&& (BitVec.allOnes m ++ 0#k) = 0#(m + k) ↔ v.toNat < 2 ^ k := by
  have h : v = v.extractLsb' k m ++ v.extractLsb' 0 k :=
    ((BitVec.extractLsb'_append_extractLsb'_eq_extractLsb' (x := v) (start₁ := 0) (len₁ := k) (start₂ := k)
      (len₂ := m) (by omega)).trans BitVec.extractLsb'_eq_self).symm
  rw [h, and_high]
  exact append_zero_eq_zero _ _

theorem and_B (arg : Word) : arg &&& Format.reservedMask .B = 0#32 ↔ arg.toNat < 2 ^ 8 :=
  and_high_eq_zero (k := 8) (m := 24) arg

theorem and_BB (arg : Word) : arg &&& Format.reservedMask .BB = 0#32 ↔ arg.toNat < 2 ^ 16 :=
  and_high_eq_zero (k := 16) (m := 16) arg

theorem and_BBB (arg : Word) : arg &&& Format.reservedMask .BBB = 0#32 ↔ arg.toNat < 2 ^ 24 :=
  and_high_eq_zero (k := 24) (m := 8) arg

theorem and_H (arg : Word) : arg &&& Format.reservedMask .H = 0#32 ↔ arg.toNat < 2 ^ 16 := and_BB arg

theorem and_RV (arg : Word) : arg &&& Format.reservedMask .RV = 0#32 ↔ arg.toNat < 2 ^ 24 := and_BBB arg

/-- The reserved bits of format `R` are those of `RV` and the low half (R81). -/
theorem and_R (arg : Word) :
    arg &&& Format.reservedMask .R = 0#32 ↔ arg.toNat < 2 ^ 24 ∧ arg.toNat % 2 ^ 16 = 0 := by
  have hsplit : Format.reservedMask .R = Format.reservedMask .RV ||| 0x0000FFFF#32 := by decide
  have hlow : arg &&& 0x0000FFFF#32 = 0#32 ↔ arg.toNat % 2 ^ 16 = 0 := by
    rw [← BitVec.toNat_inj, BitVec.toNat_and]
    have : (0x0000FFFF#32).toNat = 2 ^ 16 - 1 := by decide
    rw [this, Nat.and_two_pow_sub_one_eq_mod]
    exact Iff.rfl
  rw [hsplit, BitVec.and_or_distrib_left, BitVec.or_eq_zero_iff, and_RV, hlow]

/-! ## Fields and arguments as naturals (R81, R82) -/

theorem append_toNat {m k : Nat} (hi : BitVec m) (lo : BitVec k) : (hi ++ lo).toNat = 2 ^ k * hi.toNat + lo.toNat := by
  rw [BitVec.toNat_append, Nat.shiftLeft_eq, mul_comm, Nat.two_pow_add_eq_or_of_lt lo.isLt]

theorem fieldA_toNat (arg : Word) : (fieldA arg).toNat = arg.toNat % 2 ^ 8 := by
  simp only [fieldA, BitVec.extractLsb'_toNat, Nat.shiftRight_zero]

theorem fieldB_toNat (arg : Word) : (fieldB arg).toNat = arg.toNat / 2 ^ 8 % 2 ^ 8 := by
  simp only [fieldB, BitVec.extractLsb'_toNat, Nat.shiftRight_eq_div_pow]

theorem fieldC_toNat (arg : Word) : (fieldC arg).toNat = arg.toNat / 2 ^ 16 % 2 ^ 8 := by
  simp only [fieldC, BitVec.extractLsb'_toNat, Nat.shiftRight_eq_div_pow]

theorem fieldX_toNat (arg : Word) : (fieldX arg).toNat = arg.toNat % 2 ^ 16 := by
  simp only [fieldX, BitVec.extractLsb'_toNat, Nat.shiftRight_zero]

theorem fieldY_toNat (arg : Word) : (fieldY arg).toNat = arg.toNat / 2 ^ 16 % 2 ^ 16 := by
  simp only [fieldY, BitVec.extractLsb'_toNat, Nat.shiftRight_eq_div_pow]

theorem fieldReg_toNat (arg : Word) : (fieldReg arg).toNat = arg.toNat / 2 ^ 16 % 2 ^ 8 := fieldC_toNat arg

theorem fieldVal_toNat (arg : Word) : (fieldVal arg).toNat = arg.toNat % 2 ^ 16 := fieldX_toNat arg

theorem argB_toNat (a : Byte) : (argB a).toNat = a.toNat := by
  rw [argB, append_toNat]; simp

theorem argBB_toNat (a b : Byte) : (argBB a b).toNat = 2 ^ 8 * b.toNat + a.toNat := by
  rw [argBB, append_toNat, append_toNat]; simp

theorem argBBB_toNat (a b c : Byte) : (argBBB a b c).toNat = 2 ^ 16 * c.toNat + 2 ^ 8 * b.toNat + a.toNat := by
  rw [argBBB, append_toNat, append_toNat, append_toNat]; simp; omega

theorem argH_toNat (x : BitVec 16) : (argH x).toNat = x.toNat := by
  rw [argH, append_toNat]; simp

theorem argHH_toNat (x y : BitVec 16) : (argHH x y).toNat = 2 ^ 16 * y.toNat + x.toNat := by
  rw [argHH, append_toNat]

theorem argRV_toNat (reg : Byte) (val : BitVec 16) : (argRV reg val).toNat = 2 ^ 16 * reg.toNat + val.toNat := by
  rw [argRV, append_toNat, append_toNat]; simp

end Sys2Proof
end

