-- ==== Sys2Proof/Laws/FixedPoint.lean ====
section
/-!
SUPPORT. The fixed-point operations as naturals (41_fixedpoint.md R134 to R138).
-/

namespace Sys2Proof.Machine

theorem widen44_toNat (g : Fix44) : (widen44 g).toNat = 16 * g.toNat := by
  have := g.isLt
  simp only [widen44, BitVec.toNat_shiftLeft, BitVec.toNat_setWidth, Nat.shiftLeft_eq]
  omega

theorem widen17_toNat (f : Fix17) : (widen17 f).toNat = 2 * f.toNat := by
  have := f.isLt
  simp only [widen17, BitVec.toNat_shiftLeft, BitVec.toNat_setWidth, Nat.shiftLeft_eq]
  omega

theorem fromInt_toNat (n : Byte) : (fromInt n).toNat = 256 * n.toNat := by
  have := n.isLt
  simp only [fromInt, BitVec.toNat_shiftLeft, BitVec.toNat_setWidth, Nat.shiftLeft_eq]
  omega

theorem trunc88_toNat (p : Fix88) : (trunc88 p).toNat = p.toNat / 256 := by
  have := p.isLt
  simp only [trunc88, BitVec.extractLsb'_toNat, Nat.shiftRight_eq_div_pow]
  omega

theorem satAdd88_toNat (x y : Fix88) : (satAdd88 x y).toNat = min 0xFFFF (x.toNat + y.toNat) := by
  simp only [satAdd88, BitVec.toNat_ofNat]
  omega

theorem satSub88_toNat (x y : Fix88) : (satSub88 x y).toNat = x.toNat - y.toNat := by
  have := x.isLt
  simp only [satSub88, BitVec.toNat_ofNat]
  omega

theorem mul88_toNat (x y : Fix88) : (mul88 x y).toNat = min 0xFFFF (x.toNat * y.toNat / 256) := by
  simp only [mul88, BitVec.toNat_ofNat, Nat.shiftRight_eq_div_pow]
  omega

theorem half88_toNat (x : Fix88) : (half88 x).toNat = x.toNat / 2 := by
  simp only [half88, BitVec.toNat_ushiftRight, Nat.shiftRight_eq_div_pow, Nat.pow_one]

/-- A sum never falls below its first operand (R131). -/
theorem le_satAdd88 (x y : Fix88) : x.toNat ≤ (satAdd88 x y).toNat := by
  have := x.isLt
  rw [satAdd88_toNat]
  omega

end Sys2Proof.Machine
end

