-- ==== Sys2Proof/Laws/Rng.lean ====
section
/-!
SUPPORT. The draws in terms of the transition alone (40_bitops_rng.md R107 to R109, R111).
-/

namespace Sys2Proof.Machine

@[simp] theorem randUniform_state (rng : Word) : (randUniform rng).2 = rngNext rng := rfl
@[simp] theorem randUniform_byte (rng : Word) : (randUniform rng).1 = (rngNext rng).setWidth 8 := rfl
@[simp] theorem randScaled_state (upper : Byte) (rng : Word) : (randScaled upper rng).2 = rngNext rng := rfl

/-- `n` draws advance the generator by `n` transitions. -/
theorem addDraws_state (mask : Byte) (n sum : Nat) (rng : Word) :
    (addDraws mask n sum rng).2 = rngNext^[n] rng := by
  induction n generalizing sum rng with
  | zero => rfl
  | succ n ih => simp [addDraws, ih]

/-- The sum of `n` draws is the masked low bytes of the `n` states after the first, added to `sum`. -/
theorem addDraws_sum (mask : Byte) (n sum : Nat) (rng : Word) :
    (addDraws mask n sum rng).1 =
      sum + ∑ k ∈ Finset.range n, ((rngNext^[k + 1] rng).setWidth 8 &&& mask).toNat := by
  induction n generalizing sum rng with
  | zero => simp [addDraws]
  | succ n ih =>
    rw [addDraws, ih, Finset.sum_range_succ']
    simp only [randUniform_state, randUniform_byte, Function.iterate_succ_apply, Function.iterate_zero_apply]
    omega

theorem randMsum_of_ok {mask : Byte} (h : maskOk mask = true) (offset : Byte) (rng : Word) :
    randMsum offset mask rng =
      .ok (BitVec.ofNat 8 (offset.toNat +
        ∑ k ∈ Finset.range 16, ((rngNext^[k + 1] rng).setWidth 8 &&& mask).toNat), rngNext^[16] rng) := by
  simp only [randMsum, h, if_true, addDraws_sum, addDraws_state, Config.multinomialDraws]

theorem randMsum_of_not_ok {mask : Byte} (h : maskOk mask = false) (offset : Byte) (rng : Word) :
    randMsum offset mask rng = .error .mask := by
  simp [randMsum, h]

/-- The level-up's mask is legal (R212). -/
theorem levelUpMask_ok : maskOk Config.levelUpMask = true := by decide

end Sys2Proof.Machine
end

