-- ==== Sys2Proof/Laws/State.lean ====
section
/-!
SUPPORT. One lemma per field per update of State: what each shared update leaves in each field.
-/

namespace Sys2Proof.Machine

variable (s : State)

/-! ## respond -/

@[simp] theorem respond_rng (d : Word) : (s.respond d).rng = s.rng := rfl
@[simp] theorem respond_level (d : Word) : (s.respond d).level = s.level := rfl
@[simp] theorem respond_maxhp (d : Word) : (s.respond d).maxhp = s.maxhp := rfl
@[simp] theorem respond_maxmp (d : Word) : (s.respond d).maxmp = s.maxmp := rfl
@[simp] theorem respond_sex (d : Word) : (s.respond d).sex = s.sex := rfl
@[simp] theorem respond_pers (d : Word) : (s.respond d).pers = s.pers := rfl
@[simp] theorem respond_job (d : Word) : (s.respond d).job = s.job := rfl
@[simp] theorem respond_power (d : Word) : (s.respond d).power = s.power := rfl
@[simp] theorem respond_speed (d : Word) : (s.respond d).speed = s.speed := rfl
@[simp] theorem respond_vitality (d : Word) : (s.respond d).vitality = s.vitality := rfl
@[simp] theorem respond_intelligence (d : Word) : (s.respond d).intelligence = s.intelligence := rfl
@[simp] theorem respond_luck (d : Word) : (s.respond d).luck = s.luck := rfl
@[simp] theorem respond_fault (d : Word) : (s.respond d).fault = s.fault := rfl
@[simp] theorem respond_cause (d : Word) : (s.respond d).cause = s.cause := rfl
@[simp] theorem respond_pending (d : Word) : (s.respond d).pending = s.pending := rfl
@[simp] theorem respond_resp (d : Word) : (s.respond d).resp = some ⟨.ok, d⟩ := rfl
@[simp] theorem respond_cfg (d : Word) : (s.respond d).cfg = s.cfg := rfl
@[simp] theorem respond_unsaid (d : Word) : (s.respond d).unsaid = s.unsaid := rfl

/-! ## refuse -/

@[simp] theorem refuse_rng : s.refuse.rng = s.rng := rfl
@[simp] theorem refuse_level : s.refuse.level = s.level := rfl
@[simp] theorem refuse_maxhp : s.refuse.maxhp = s.maxhp := rfl
@[simp] theorem refuse_maxmp : s.refuse.maxmp = s.maxmp := rfl
@[simp] theorem refuse_sex : s.refuse.sex = s.sex := rfl
@[simp] theorem refuse_pers : s.refuse.pers = s.pers := rfl
@[simp] theorem refuse_job : s.refuse.job = s.job := rfl
@[simp] theorem refuse_power : s.refuse.power = s.power := rfl
@[simp] theorem refuse_speed : s.refuse.speed = s.speed := rfl
@[simp] theorem refuse_vitality : s.refuse.vitality = s.vitality := rfl
@[simp] theorem refuse_intelligence : s.refuse.intelligence = s.intelligence := rfl
@[simp] theorem refuse_luck : s.refuse.luck = s.luck := rfl
@[simp] theorem refuse_fault : s.refuse.fault = s.fault := rfl
@[simp] theorem refuse_cause : s.refuse.cause = s.cause := rfl
@[simp] theorem refuse_pending : s.refuse.pending = s.pending := rfl
@[simp] theorem refuse_resp : s.refuse.resp = some ⟨.fault, s.cause.setWidth 32⟩ := rfl
@[simp] theorem refuse_cfg : s.refuse.cfg = s.cfg := rfl
@[simp] theorem refuse_unsaid : s.refuse.unsaid = s.unsaid := rfl

/-! ## latch and raiseFault -/

@[simp] theorem latch_rng (c : Cause) : (s.latch c).rng = s.rng := by unfold State.latch; split <;> rfl
@[simp] theorem latch_level (c : Cause) : (s.latch c).level = s.level := by unfold State.latch; split <;> rfl
@[simp] theorem latch_maxhp (c : Cause) : (s.latch c).maxhp = s.maxhp := by unfold State.latch; split <;> rfl
@[simp] theorem latch_maxmp (c : Cause) : (s.latch c).maxmp = s.maxmp := by unfold State.latch; split <;> rfl
@[simp] theorem latch_sex (c : Cause) : (s.latch c).sex = s.sex := by unfold State.latch; split <;> rfl
@[simp] theorem latch_pers (c : Cause) : (s.latch c).pers = s.pers := by unfold State.latch; split <;> rfl
@[simp] theorem latch_job (c : Cause) : (s.latch c).job = s.job := by unfold State.latch; split <;> rfl
@[simp] theorem latch_power (c : Cause) : (s.latch c).power = s.power := by unfold State.latch; split <;> rfl
@[simp] theorem latch_speed (c : Cause) : (s.latch c).speed = s.speed := by unfold State.latch; split <;> rfl
@[simp] theorem latch_vitality (c : Cause) : (s.latch c).vitality = s.vitality := by unfold State.latch; split <;> rfl
@[simp] theorem latch_intelligence (c : Cause) : (s.latch c).intelligence = s.intelligence := by unfold State.latch; split <;> rfl
@[simp] theorem latch_luck (c : Cause) : (s.latch c).luck = s.luck := by unfold State.latch; split <;> rfl
@[simp] theorem latch_pending (c : Cause) : (s.latch c).pending = s.pending := by unfold State.latch; split <;> rfl
@[simp] theorem latch_resp (c : Cause) : (s.latch c).resp = s.resp := by unfold State.latch; split <;> rfl
@[simp] theorem latch_cfg (c : Cause) : (s.latch c).cfg = s.cfg := by unfold State.latch; split <;> rfl
@[simp] theorem latch_unsaid (c : Cause) : (s.latch c).unsaid = s.unsaid := by unfold State.latch; split <;> rfl

theorem latch_of_good (c : Cause) (h : s.fault = 0#1) :
    s.latch c = { s with cause := causeCode c, fault := 1#1 } := by
  simp [State.latch, h]

theorem latch_of_fault (c : Cause) (h : s.fault = 1#1) : s.latch c = s := by
  simp [State.latch, h]

/-- A bit that is not 0 is 1. -/
theorem fault_eq_one_of_ne (h : s.fault ≠ 0#1) : s.fault = 1#1 := by
  revert h; generalize s.fault = b; revert b; decide

@[simp] theorem latch_fault (c : Cause) : (s.latch c).fault = 1#1 := by
  by_cases h : s.fault = 0#1
  · rw [latch_of_good s c h]
  · rw [latch_of_fault s c (fault_eq_one_of_ne s h)]; exact fault_eq_one_of_ne s h

@[simp] theorem raiseFault_rng (c : Cause) : (s.raiseFault c).rng = s.rng := by simp [State.raiseFault]
@[simp] theorem raiseFault_level (c : Cause) : (s.raiseFault c).level = s.level := by simp [State.raiseFault]
@[simp] theorem raiseFault_maxhp (c : Cause) : (s.raiseFault c).maxhp = s.maxhp := by simp [State.raiseFault]
@[simp] theorem raiseFault_maxmp (c : Cause) : (s.raiseFault c).maxmp = s.maxmp := by simp [State.raiseFault]
@[simp] theorem raiseFault_sex (c : Cause) : (s.raiseFault c).sex = s.sex := by simp [State.raiseFault]
@[simp] theorem raiseFault_pers (c : Cause) : (s.raiseFault c).pers = s.pers := by simp [State.raiseFault]
@[simp] theorem raiseFault_job (c : Cause) : (s.raiseFault c).job = s.job := by simp [State.raiseFault]
@[simp] theorem raiseFault_power (c : Cause) : (s.raiseFault c).power = s.power := by simp [State.raiseFault]
@[simp] theorem raiseFault_speed (c : Cause) : (s.raiseFault c).speed = s.speed := by simp [State.raiseFault]
@[simp] theorem raiseFault_vitality (c : Cause) : (s.raiseFault c).vitality = s.vitality := by simp [State.raiseFault]
@[simp] theorem raiseFault_intelligence (c : Cause) : (s.raiseFault c).intelligence = s.intelligence := by simp [State.raiseFault]
@[simp] theorem raiseFault_luck (c : Cause) : (s.raiseFault c).luck = s.luck := by simp [State.raiseFault]
@[simp] theorem raiseFault_pending (c : Cause) : (s.raiseFault c).pending = s.pending := by simp [State.raiseFault]
@[simp] theorem raiseFault_cfg (c : Cause) : (s.raiseFault c).cfg = s.cfg := by simp [State.raiseFault]
@[simp] theorem raiseFault_unsaid (c : Cause) : (s.raiseFault c).unsaid = s.unsaid := by simp [State.raiseFault]

@[simp] theorem raiseFault_fault (c : Cause) : (s.raiseFault c).fault = 1#1 := by simp [State.raiseFault]

/-- Fault entry from a good state: exactly STATUS and the response (R214). -/
theorem raiseFault_of_good (c : Cause) (h : s.fault = 0#1) :
    s.raiseFault c = s.afterFault (causeCode c) := by
  simp [State.raiseFault, latch_of_good s c h, State.refuse, State.afterFault]

/-- In the FAULT state nothing is latched: the first cause stays (R214). -/
theorem raiseFault_of_fault (c : Cause) (h : s.fault = 1#1) : s.raiseFault c = s.refuse := by
  simp [State.raiseFault, latch_of_fault s c h]

@[simp] theorem raiseFault_cause (c : Cause) :
    (s.raiseFault c).cause = if s.fault = 0#1 then causeCode c else s.cause := by
  by_cases h : s.fault = 0#1
  · rw [raiseFault_of_good s c h]; simp [State.afterFault, h]
  · rw [raiseFault_of_fault s c (fault_eq_one_of_ne s h)]; simp [h]

@[simp] theorem raiseFault_resp (c : Cause) :
    (s.raiseFault c).resp = some ⟨.fault, (s.raiseFault c).cause.setWidth 32⟩ := rfl

/-! ## setAttr -/

@[simp] theorem setAttr_rng (a : Attr) (v : Fix88) : (s.setAttr a v).rng = s.rng := by cases a <;> rfl
@[simp] theorem setAttr_level (a : Attr) (v : Fix88) : (s.setAttr a v).level = s.level := by cases a <;> rfl
@[simp] theorem setAttr_maxhp (a : Attr) (v : Fix88) : (s.setAttr a v).maxhp = s.maxhp := by cases a <;> rfl
@[simp] theorem setAttr_maxmp (a : Attr) (v : Fix88) : (s.setAttr a v).maxmp = s.maxmp := by cases a <;> rfl
@[simp] theorem setAttr_sex (a : Attr) (v : Fix88) : (s.setAttr a v).sex = s.sex := by cases a <;> rfl
@[simp] theorem setAttr_pers (a : Attr) (v : Fix88) : (s.setAttr a v).pers = s.pers := by cases a <;> rfl
@[simp] theorem setAttr_job (a : Attr) (v : Fix88) : (s.setAttr a v).job = s.job := by cases a <;> rfl
@[simp] theorem setAttr_fault (a : Attr) (v : Fix88) : (s.setAttr a v).fault = s.fault := by cases a <;> rfl
@[simp] theorem setAttr_cause (a : Attr) (v : Fix88) : (s.setAttr a v).cause = s.cause := by cases a <;> rfl
@[simp] theorem setAttr_pending (a : Attr) (v : Fix88) : (s.setAttr a v).pending = s.pending := by cases a <;> rfl
@[simp] theorem setAttr_resp (a : Attr) (v : Fix88) : (s.setAttr a v).resp = s.resp := by cases a <;> rfl
@[simp] theorem setAttr_cfg (a : Attr) (v : Fix88) : (s.setAttr a v).cfg = s.cfg := by cases a <;> rfl
@[simp] theorem setAttr_unsaid (a : Attr) (v : Fix88) : (s.setAttr a v).unsaid = s.unsaid := by cases a <;> rfl

@[simp] theorem setAttr_attr_self (a : Attr) (v : Fix88) : (s.setAttr a v).attr a = v := by cases a <;> rfl

@[simp] theorem setAttr_attr_of_ne {a b : Attr} (v : Fix88) (h : a ≠ b) :
    (s.setAttr a v).attr b = s.attr b := by
  cases a <;> cases b <;> first | rfl | exact absurd rfl h

/-! ## leaveUnsaid, applyReset, present -/

@[simp] theorem leaveUnsaid_fault : s.leaveUnsaid.fault = s.fault := rfl
@[simp] theorem leaveUnsaid_cause : s.leaveUnsaid.cause = s.cause := rfl
@[simp] theorem leaveUnsaid_pending : s.leaveUnsaid.pending = s.pending := rfl
@[simp] theorem leaveUnsaid_resp : s.leaveUnsaid.resp = s.resp := rfl
@[simp] theorem leaveUnsaid_cfg : s.leaveUnsaid.cfg = s.cfg := rfl
@[simp] theorem leaveUnsaid_unsaid : s.leaveUnsaid.unsaid = s.unsaid + 1 := rfl

@[simp] theorem applyReset_rng : s.applyReset.rng = Config.defaultSeed := rfl
@[simp] theorem applyReset_level : s.applyReset.level = 1#7 := rfl
@[simp] theorem applyReset_maxhp : s.applyReset.maxhp = 0#16 := rfl
@[simp] theorem applyReset_maxmp : s.applyReset.maxmp = 0#16 := rfl
@[simp] theorem applyReset_sex : s.applyReset.sex = 0#1 := rfl
@[simp] theorem applyReset_pers : s.applyReset.pers = 0#8 := rfl
@[simp] theorem applyReset_job : s.applyReset.job = 0#8 := rfl
@[simp] theorem applyReset_power : s.applyReset.power = 0#16 := rfl
@[simp] theorem applyReset_speed : s.applyReset.speed = 0#16 := rfl
@[simp] theorem applyReset_vitality : s.applyReset.vitality = 0#16 := rfl
@[simp] theorem applyReset_intelligence : s.applyReset.intelligence = 0#16 := rfl
@[simp] theorem applyReset_luck : s.applyReset.luck = 0#16 := rfl
@[simp] theorem applyReset_fault : s.applyReset.fault = 0#1 := rfl
@[simp] theorem applyReset_cause : s.applyReset.cause = 0#8 := rfl
@[simp] theorem applyReset_pending : s.applyReset.pending = s.pending := rfl
@[simp] theorem applyReset_resp : s.applyReset.resp = none := rfl
@[simp] theorem applyReset_cfg : s.applyReset.cfg = s.cfg := rfl
@[simp] theorem applyReset_unsaid : s.applyReset.unsaid = s.unsaid := rfl

@[simp] theorem present_pending (w : CommandWord) : (s.present w).pending = .command w :: s.pending := rfl
@[simp] theorem present_rng (w : CommandWord) : (s.present w).rng = s.rng := rfl
@[simp] theorem present_level (w : CommandWord) : (s.present w).level = s.level := rfl
@[simp] theorem present_maxhp (w : CommandWord) : (s.present w).maxhp = s.maxhp := rfl
@[simp] theorem present_maxmp (w : CommandWord) : (s.present w).maxmp = s.maxmp := rfl
@[simp] theorem present_sex (w : CommandWord) : (s.present w).sex = s.sex := rfl
@[simp] theorem present_pers (w : CommandWord) : (s.present w).pers = s.pers := rfl
@[simp] theorem present_job (w : CommandWord) : (s.present w).job = s.job := rfl
@[simp] theorem present_power (w : CommandWord) : (s.present w).power = s.power := rfl
@[simp] theorem present_speed (w : CommandWord) : (s.present w).speed = s.speed := rfl
@[simp] theorem present_vitality (w : CommandWord) : (s.present w).vitality = s.vitality := rfl
@[simp] theorem present_intelligence (w : CommandWord) : (s.present w).intelligence = s.intelligence := rfl
@[simp] theorem present_luck (w : CommandWord) : (s.present w).luck = s.luck := rfl
@[simp] theorem present_fault (w : CommandWord) : (s.present w).fault = s.fault := rfl
@[simp] theorem present_cause (w : CommandWord) : (s.present w).cause = s.cause := rfl
@[simp] theorem present_resp (w : CommandWord) : (s.present w).resp = s.resp := rfl
@[simp] theorem present_cfg (w : CommandWord) : (s.present w).cfg = s.cfg := rfl
@[simp] theorem present_unsaid (w : CommandWord) : (s.present w).unsaid = s.unsaid := rfl

/-! ## Attributes seen through other updates -/

@[simp] theorem attr_power : s.attr .power = s.power := rfl
@[simp] theorem attr_speed : s.attr .speed = s.speed := rfl
@[simp] theorem attr_vitality : s.attr .vitality = s.vitality := rfl
@[simp] theorem attr_intelligence : s.attr .intelligence = s.intelligence := rfl
@[simp] theorem attr_luck : s.attr .luck = s.luck := rfl
@[simp] theorem respond_attr (d : Word) (a : Attr) : (s.respond d).attr a = s.attr a := by cases a <;> rfl
@[simp] theorem refuse_attr (a : Attr) : s.refuse.attr a = s.attr a := by cases a <;> rfl
@[simp] theorem raiseFault_attr (c : Cause) (a : Attr) : (s.raiseFault c).attr a = s.attr a := by
  cases a <;> simp

end Sys2Proof.Machine
end

