-- ==== Sys2Proof/Laws/Ops.lean ====
section
/-!
SUPPORT. What the shared operations can do, said once: reading a ROM byte, the FAULT-state guard, how a command ends.
-/

namespace Sys2Proof.Machine

/-! ## memRead -/

theorem memRead_of_lt (c : Cfg) (sp : Space) (a : Nat) (h : a < spaceSize c sp) :
    memRead c sp a = .ok ((spaceContents c sp).read a) := by
  simp [memRead, h]

theorem memRead_of_ge (c : Cfg) (sp : Space) (a : Nat) (h : spaceSize c sp ≤ a) :
    memRead c sp a = .error .absentAddress := by
  simp [memRead, Nat.not_lt.mpr h]

/-- A ROM read never raises a fault of the spec (R54). -/
theorem memRead_ne_raised (c : Cfg) (sp : Space) (a : Nat) (k : Cause) :
    memRead c sp a ≠ .error (.raised k) := by
  unfold memRead; split <;> simp

/-! ## whenRunning and complete -/

theorem whenRunning_of_good {s : State} (h : s.fault = 0#1) (k : Host.Outcome State Fault Refusal) :
    whenRunning s k = k := by
  simp [whenRunning, h]

theorem whenRunning_of_fault {s : State} (h : s.fault = 1#1) (k : Host.Outcome State Fault Refusal) :
    whenRunning s k = .next s.refuse := by
  simp [whenRunning, h]

/-- What the guard can answer: a refusal in the FAULT state, or what the command does. -/
theorem whenRunning_next {s t : State} {k : Host.Outcome State Fault Refusal} (h : whenRunning s k = .next t) :
    (s.fault = 1#1 ∧ t = s.refuse) ∨ (s.fault = 0#1 ∧ k = .next t) := by
  unfold whenRunning at h
  split at h
  · exact .inr ⟨‹_›, h⟩
  · rename_i hf
    exact .inl ⟨fault_eq_one_of_ne s hf, by simpa using h.symm⟩

/-- What a command that ends through `complete` can answer. -/
theorem complete_next {s t : State} {r : Except Abandon State} (h : complete s r = .next t) :
    r = .ok t ∨ ∃ c, r = .error (.raised c) ∧ t = s.raiseFault c := by
  rcases r with (c | _) | s'
  · exact .inr ⟨c, rfl, by simpa [complete] using h.symm⟩
  · simp [complete] at h
  · exact .inl (by simpa [complete] using h)

theorem illegalCommand_of_good {s : State} (h : s.fault = 0#1) :
    illegalCommand s = .next (s.afterFault 4#8) := by
  rw [illegalCommand, whenRunning_of_good h, raiseFault_of_good s _ h]; rfl

theorem illegalCommand_of_fault {s : State} (h : s.fault = 1#1) : illegalCommand s = .next s.refuse := by
  rw [illegalCommand, whenRunning_of_fault h]

/-! ## The input list -/

theorem takeInput_nil {s : State} (h : s.pending = []) : takeInput s = none := by
  simp [takeInput, h]

theorem takeInput_cons {s : State} {i : Input} {rest : List Input} (h : s.pending = i :: rest) :
    takeInput s = some (i, { s with pending := rest }) := by
  simp [takeInput, h]

@[simp] theorem takeInput_present (s : State) (w : CommandWord) : takeInput (s.present w) = some (.command w, s) := rfl

/-- Presenting a word and taking one step is running that word. -/
@[simp] theorem step_present (s : State) (w : CommandWord) : step (s.present w) = runWord w s := rfl

/-- What a step can be: nothing presented, reset, or a command word. -/
theorem step_cases (s : State) :
    (s.pending = [] ∧ step s = .next s) ∨
    (∃ rest, s.pending = .reset :: rest ∧ step s = .next { s with pending := rest }.applyReset) ∨
    (∃ w rest, s.pending = .command w :: rest ∧ step s = runWord w { s with pending := rest }) := by
  rcases h : s.pending with _ | ⟨i | _, rest⟩
  · exact .inl ⟨rfl, by simp [step, runNext, takeInput_nil h]⟩
  · exact .inr (.inr ⟨i, rest, rfl, by simp [step, runNext, takeInput_cons h]⟩)
  · exact .inr (.inl ⟨rest, rfl, by simp [step, runNext, takeInput_cons h]⟩)

/-- What running a word can be: the decoded command's meaning, or an illegal command. -/
theorem runWord_of_ok {w : CommandWord} {i : Instr} (h : decode w = .ok i) (s : State) : runWord w s = exec i s := by
  simp [runWord, h]

theorem runWord_of_error {w : CommandWord} {e : DecodeError} (h : decode w = .error e) (s : State) :
    runWord w s = illegalCommand s := by
  simp [runWord, h]

/-- A word that decodes to nothing is an illegal command. -/
theorem illegalWord_of_error {w : CommandWord} {e : DecodeError} (h : decode w = .error e) : IllegalWord w :=
  ⟨⟨e, h⟩, fun s hs => by rw [step_present, runWord_of_error h, illegalCommand_of_good hs]⟩

end Sys2Proof.Machine
end

