-- ==== Sys2Proof/Laws/Tables.lean ====
section
/-!
SUPPORT. What the table queries can answer (20_memory.md R55 to R58): for a job and a personality that have a record,
a byte of that record, or a missing band.
-/

namespace Sys2Proof.Machine

theorem attrIndex_lt (a : Attr) : attrIndex a < 5 := by cases a <;> decide

theorem initialAttr_eq (c : Cfg) {j : Nat} (hj : j < c.njobs) (a : Attr) :
    initialAttr c j a 0 = .ok (c.init j a) := by
  have := attrIndex_lt a
  rw [initialAttr, memRead_of_lt _ _ _ (by simp only [spaceSize, Config.jobRecordBytes]; omega)]
  rfl

theorem bandBound_eq (c : Cfg) {j k : Nat} (hj : j < c.njobs) (hk : k < 8) (a : Attr) :
    bandBound c j a k = .ok (c.jobrom.read (128 * j + 16 + 16 * attrIndex a + 2 * k)) := by
  have := attrIndex_lt a
  rw [bandBound, memRead_of_lt _ _ _ (by simp only [spaceSize, Config.jobRecordBytes]; omega)]
  rfl

theorem bandInc_eq (c : Cfg) {j k : Nat} (hj : j < c.njobs) (hk : k < 8) (a : Attr) :
    bandInc c j a k = .ok (c.inc j a k) := by
  have := attrIndex_lt a
  rw [bandInc, memRead_of_lt _ _ _ (by simp only [spaceSize, Config.jobRecordBytes]; omega)]
  rfl

theorem growthFactor_eq (c : Cfg) {p : Nat} (hp : p < c.npers) (a : Attr) :
    growthFactor c p a = .ok (c.factor p a) := by
  have := attrIndex_lt a
  rw [growthFactor, memRead_of_lt _ _ _ (by simp only [spaceSize, Config.persRecordBytes]; omega)]
  rfl

theorem phys_eq (c : Cfg) {j : Nat} (hj : j < c.njobs) :
    phys c j = .ok (c.physBit j) := by
  rw [phys, memRead_of_lt _ _ _ (by simp only [spaceSize, Config.jobRecordBytes]; omega)]
  rfl

/-- The scan of the slots `n .. 7`: the first slot whose bound reaches `l`, if every slot before it is non-zero; else a
missing table entry. -/
theorem scanBands_spec (c : Cfg) {j : Nat} (hj : j < c.njobs) (l : Nat) (a : Attr) (n m : Nat) (hm : n + m = 8) :
    (∃ k, n ≤ k ∧ k < 8 ∧ (∀ k', n ≤ k' → k' < k → c.bound j a k' ≠ 0 ∧ c.bound j a k' < l) ∧
        c.bound j a k ≠ 0 ∧ l ≤ c.bound j a k ∧ scanBands c j l a (List.range' n m) = .ok (c.inc j a k)) ∨
    (scanBands c j l a (List.range' n m) = .error (.raised .table) ∧
        ∀ k, n ≤ k → k < 8 → (∀ k', n ≤ k' → k' ≤ k → c.bound j a k' ≠ 0) → c.bound j a k < l) := by
  induction m generalizing n with
  | zero => exact .inr ⟨rfl, fun k h1 h2 => by omega⟩
  | succ m ih =>
    have hn : n < 8 := by omega
    have hb := bandBound_eq c hj hn a
    have hbound : c.bound j a n = (c.jobrom.read (128 * j + 16 + 16 * attrIndex a + 2 * n)).toNat := rfl
    generalize hv : c.jobrom.read (128 * j + 16 + 16 * attrIndex a + 2 * n) = v at hb hbound
    have hscan : scanBands c j l a (List.range' n (m + 1)) =
        if v = 0#8 then .error (.raised .table)
        else if l ≤ v.toNat then bandInc c j a n else scanBands c j l a (List.range' (n + 1) m) := by
      rw [List.range'_succ, scanBands, hb]; rfl
    have hzero : v = 0#8 ↔ c.bound j a n = 0 := by
      rw [hbound]; constructor
      · rintro rfl; rfl
      · intro h; exact BitVec.eq_of_toNat_eq (by simpa using h)
    rw [hscan]
    split
    · rename_i h0
      exact .inr ⟨rfl, fun k h1 _ h3 => absurd (hzero.mp h0) (h3 n (Nat.le_refl _) h1)⟩
    · rename_i h0
      have h0' : c.bound j a n ≠ 0 := fun h => h0 (hzero.mpr h)
      split
      · rename_i hl
        refine .inl ⟨n, Nat.le_refl _, hn, fun k' h1 h2 => by omega, h0', by rw [hbound]; exact hl, ?_⟩
        exact bandInc_eq c hj hn a
      · rename_i hl
        have hl' : c.bound j a n < l := by rw [hbound]; omega
        rcases ih (n + 1) (by omega) with ⟨k, h1, h2, h3, h4, h5, h6⟩ | ⟨h1, h2⟩
        · refine .inl ⟨k, by omega, h2, fun k' h7 h8 => ?_, h4, h5, h6⟩
          rcases Nat.eq_or_lt_of_le h7 with rfl | h9
          · exact ⟨h0', hl'⟩
          · exact h3 k' h9 h8
        · refine .inr ⟨h1, fun k h7 h8 h9 => ?_⟩
          rcases Nat.eq_or_lt_of_le h7 with rfl | h10
          · exact hl'
          · exact h2 k h10 h8 fun k' h11 h12 => h9 k' (by omega) h12

theorem increment_eq_scan (c : Cfg) (j l : Nat) (a : Attr) :
    increment c j l a = scanBands c j l a (List.range' 0 8) := by
  rw [increment, List.range_eq_range']; rfl

/-- For a job with a record `increment` answers a byte or raises TABLE, nothing else. -/
theorem increment_ok_or_table (c : Cfg) {j : Nat} (hj : j < c.njobs) (l : Nat) (a : Attr) :
    (∃ g, increment c j l a = .ok g) ∨ increment c j l a = .error (.raised .table) := by
  rw [increment_eq_scan]
  rcases scanBands_spec c hj l a 0 8 rfl with ⟨k, _, _, _, _, _, h⟩ | ⟨h, _⟩
  · exact .inl ⟨_, h⟩
  · exact .inr h

/-- Where a band covers the level, `increment` answers (R56, R59). -/
theorem increment_ok_of_covers (c : Cfg) {j : Nat} (hj : j < c.njobs) (hc : c.Covers j) {l : Nat} (h2 : 2 ≤ l)
    (h99 : l ≤ 99) (a : Attr) : ∃ g, increment c j l a = .ok g := by
  rw [increment_eq_scan]
  rcases scanBands_spec c hj l a 0 8 rfl with ⟨k, _, _, _, _, _, h⟩ | ⟨_, h⟩
  · exact ⟨_, h⟩
  · obtain ⟨k, hk, hlk, hpre⟩ := hc a l h2 h99
    have := h k (Nat.zero_le _) hk fun k' _ hk' => by
      rcases Nat.eq_or_lt_of_le hk' with rfl | h'
      · omega
      · exact hpre k' h'
    omega

end Sys2Proof.Machine
end

