-- ==== Sys2Proof/Laws/Growth.lean ====
section
/-!
SUPPORT. What the growth engine can do, said once (42_growth.md R161 to R170): the accumulated curve, the range, one
attribute's growth, a whole level-up.
-/

namespace Sys2Proof.Machine

/-! ## The accumulated curve -/

/-- The fold of R161 from any start: a saturating sum of the widened increments. -/
theorem foldGrowth_eq_sum (c : Cfg) (j : Nat) (a : Attr) (g : Nat → Fix44) (n t : Nat) (acc : Fix88)
    (h : ∀ i < n, increment c j (t + i) a = .ok (g (t + i))) :
    ∃ r : Fix88, (List.range' t n).foldlM
      (fun acc t => do
        let g ← increment c j t a
        return satAdd88 acc (widen44 g)) acc = (.ok r : Except Abandon Fix88) ∧
      r.toNat = min 0xFFFF (acc.toNat + ∑ i ∈ Finset.range n, 16 * (g (t + i)).toNat) := by
  induction n generalizing t acc with
  | zero => exact ⟨acc, rfl, by have := acc.isLt; simp; omega⟩
  | succ n ih =>
    have h0 : increment c j t a = .ok (g t) := h 0 (by omega)
    obtain ⟨r, hr, hsum⟩ := ih (t + 1) (satAdd88 acc (widen44 (g t))) fun i hi => by
      have := h (i + 1) (by omega)
      rwa [show t + (i + 1) = t + 1 + i by omega] at this
    refine ⟨r, ?_, ?_⟩
    · rw [List.range'_succ, List.foldlM_cons, h0]; exact hr
    · rw [hsum, satAdd88_toNat, widen44_toNat, Finset.sum_range_succ']
      have e : ∀ i, t + 1 + i = t + (i + 1) := fun i => by omega
      simp only [e, Nat.add_zero]
      omega

/-- `sum_incr` (R161) is the truncated saturating sum of the increments of levels 2 to `l`. -/
theorem sumIncr_eq (c : Cfg) (j l : Nat) (a : Attr) (g : Nat → Fix44)
    (h : ∀ i < l - 1, increment c j (2 + i) a = .ok (g (2 + i))) :
    ∃ b : Byte, sumIncr c j l a = .ok b ∧
      b.toNat = min 0xFFFF (∑ i ∈ Finset.range (l - 1), 16 * (g (2 + i)).toNat) / 256 := by
  obtain ⟨r, hr, hsum⟩ := foldGrowth_eq_sum c j a g (l - 1) 2 0#16 h
  refine ⟨trunc88 r, ?_, ?_⟩
  · rw [sumIncr, accumulate, hr]; rfl
  · rw [trunc88_toNat, hsum]; simp

/-- The fold answers or raises TABLE. -/
theorem foldGrowth_ok_or_table (c : Cfg) {j : Nat} (hj : j < c.njobs) (a : Attr) (ts : List Nat) (acc : Fix88) :
    (∃ r, ts.foldlM
      (fun acc t => do
        let g ← increment c j t a
        return satAdd88 acc (widen44 g)) acc = (.ok r : Except Abandon Fix88)) ∨
    ts.foldlM
      (fun acc t => do
        let g ← increment c j t a
        return satAdd88 acc (widen44 g)) acc = (.error (.raised .table) : Except Abandon Fix88) := by
  induction ts generalizing acc with
  | nil => exact .inl ⟨acc, rfl⟩
  | cons t ts ih =>
    rw [List.foldlM_cons]
    rcases increment_ok_or_table c hj t a with ⟨g, h⟩ | h
    · rw [h]; exact ih (satAdd88 acc (widen44 g))
    · rw [h]; exact .inr rfl

/-- A missing band among the levels of the fold passes through it. -/
theorem foldGrowth_of_table (c : Cfg) {j : Nat} (hj : j < c.njobs) (a : Attr) (ts : List Nat) (acc : Fix88)
    (h : ∃ t ∈ ts, increment c j t a = .error (.raised .table)) :
    ts.foldlM
      (fun acc t => do
        let g ← increment c j t a
        return satAdd88 acc (widen44 g)) acc = (.error (.raised .table) : Except Abandon Fix88) := by
  induction ts generalizing acc with
  | nil => simp at h
  | cons t ts ih =>
    rw [List.foldlM_cons]
    rcases increment_ok_or_table c hj t a with ⟨g, hg⟩ | hg
    · obtain ⟨t', ht', he⟩ := h
      rw [hg]
      rcases List.mem_cons.mp ht' with rfl | ht'
      · rw [he] at hg; cases hg
      · exact ih _ ⟨t', ht', he⟩
    · rw [hg]; rfl

theorem sumIncr_ok_or_table (c : Cfg) {j : Nat} (hj : j < c.njobs) (l : Nat) (a : Attr) :
    (∃ b, sumIncr c j l a = .ok b) ∨ sumIncr c j l a = .error (.raised .table) := by
  rcases foldGrowth_ok_or_table c hj a (List.range' 2 (l - 1)) 0#16 with ⟨r, h⟩ | h
  · exact .inl ⟨trunc88 r, by rw [sumIncr, accumulate, h]; rfl⟩
  · exact .inr (by rw [sumIncr, accumulate, h]; rfl)

theorem sumIncr_ok_of_covers (c : Cfg) {j : Nat} (hj : j < c.njobs) (hc : c.Covers j) {l : Nat} (h99 : l ≤ 99)
    (a : Attr) : ∃ b, sumIncr c j l a = .ok b := by
  have hall : ∀ i, ∃ g, i < l - 1 → increment c j (2 + i) a = .ok g := fun i => by
    by_cases hi : i < l - 1
    · obtain ⟨g, h⟩ := increment_ok_of_covers c hj hc (l := 2 + i) (by omega) (by omega) a
      exact ⟨g, fun _ => h⟩
    · exact ⟨0#8, fun h => absurd h hi⟩
  choose g hg using hall
  obtain ⟨b, hb, _⟩ := sumIncr_eq c j l a (fun t => g (t - 2)) fun i hi => by
    have := hg i hi
    rwa [show 2 + i - 2 = i by omega]
  exact ⟨b, hb⟩

/-! ## The range -/

/-- The range of R165 in terms of the summed increments. -/
theorem rangeAttr_of_sum (c : Cfg) {j : Nat} (hj : j < c.njobs) {l : Nat} {a : Attr} {b : Byte}
    (h : sumIncr c j l a = .ok b) :
    rangeAttr c j l a =
      .ok ⟨lowerOf (BitVec.ofNat 8 (min 255 ((c.init j a).toNat + b.toNat))) a,
        BitVec.ofNat 8 (min 255 ((c.init j a).toNat + b.toNat)),
        upperOf (BitVec.ofNat 8 (min 255 ((c.init j a).toNat + b.toNat))) l⟩ := by
  rw [rangeAttr, standard, initialAttr_eq c hj a, h]; rfl

theorem rangeAttr_of_table (c : Cfg) {j : Nat} (hj : j < c.njobs) {l : Nat} {a : Attr}
    (h : sumIncr c j l a = .error (.raised .table)) : rangeAttr c j l a = .error (.raised .table) := by
  rw [rangeAttr, standard, initialAttr_eq c hj a, h]; rfl

theorem rangeAttr_ok_or_table (c : Cfg) {j : Nat} (hj : j < c.njobs) (l : Nat) (a : Attr) :
    (∃ r, rangeAttr c j l a = .ok r) ∨ rangeAttr c j l a = .error (.raised .table) := by
  rcases sumIncr_ok_or_table c hj l a with ⟨b, h⟩ | h
  · exact .inl ⟨_, rangeAttr_of_sum c hj h⟩
  · exact .inr (rangeAttr_of_table c hj h)

theorem rangeAttr_ok_of_covers (c : Cfg) {j : Nat} (hj : j < c.njobs) (hc : c.Covers j) {l : Nat} (h99 : l ≤ 99)
    (a : Attr) : ∃ r, rangeAttr c j l a = .ok r := by
  obtain ⟨b, h⟩ := sumIncr_ok_of_covers c hj hc h99 a
  exact ⟨_, rangeAttr_of_sum c hj h⟩

/-- The two limits of a range, from its centre (R163, R164). -/
theorem rangeAttr_limits {c : Cfg} {j l : Nat} {a : Attr} {r : AttrRange} (h : rangeAttr c j l a = .ok r) :
    r.upper.toNat = min 255 (r.standard.toNat + 15 + 2 * l) ∧
    r.lower.toNat = r.standard.toNat * lowerFactor a / 100 + 1 := by
  unfold rangeAttr at h
  rcases hs : standard c j l a with e | std
  · rw [hs] at h; cases h
  · rw [hs] at h
    cases h
    have hlt := std.isLt
    refine ⟨?_, ?_⟩
    · simp only [upperOf, BitVec.toNat_ofNat]; omega
    · have hf : lowerFactor a ≤ 70 := by cases a <;> decide
      have : std.toNat * lowerFactor a ≤ 255 * 70 := Nat.mul_le_mul (by omega) hf
      simp only [lowerOf, BitVec.toNat_ofNat]; omega

/-! ## One attribute -/

theorem addAndClamp_toNat (cur inc : Fix88) (lo : Byte) :
    (addAndClamp cur inc lo).toNat = max (min 0xFFFF (cur.toNat + inc.toNat)) (256 * lo.toNat) := by
  simp only [addAndClamp, satAdd88_toNat, fromInt_toNat]
  split
  · rw [fromInt_toNat]; omega
  · rw [satAdd88_toNat]; omega

theorem aheadInc_toNat (c : Cfg) (rng : Word) :
    (aheadInc c rng).1.toNat = (rngNext rng).toNat % 2 * c.aheadUnit.toNat := by
  have hbit : ((randUniform rng).1 &&& 1#8).toNat = (rngNext rng).toNat % 2 := by
    simp only [randUniform_byte, BitVec.toNat_and, BitVec.toNat_setWidth, BitVec.toNat_ofNat]
    have : 1 % 2 ^ 8 = 2 ^ 1 - 1 := by decide
    rw [this, Nat.and_two_pow_sub_one_eq_mod]
    omega
  have hu := c.aheadUnit.isLt
  simp only [aheadInc, BitVec.toNat_mul, BitVec.toNat_setWidth, hbit]
  rcases Nat.mod_two_eq_zero_or_one (rngNext rng).toNat with h | h <;> rw [h] <;> omega

@[simp] theorem aheadInc_state (c : Cfg) (rng : Word) : (aheadInc c rng).2 = rngNext rng := rfl

theorem normalInc_eq (c : Cfg) (j L : Nat) {p : Nat} (hp : p < c.npers) (a : Attr) (rng : Word) :
    normalInc c j p L a rng =
      match increment c j L a with
      | .ok g => .ok (growInc g (multinomialSum 136#8 31#8 rng) (c.factor p a), rngNext^[16] rng)
      | .error e => .error e := by
  rw [normalInc, randMsum_of_ok levelUpMask_ok, growthFactor_eq c hp a]
  rcases increment c j L a with e | g <;> rfl

/-- What one attribute's growth can answer: a step of R167, with only `ATTR[a]` and RNG written; or TABLE. -/
theorem growOne_cases (L : Nat) (s : State) (a : Attr) (hj : s.job.toNat < s.cfg.njobs)
    (hp : s.pers.toNat < s.cfg.npers) :
    (∃ new rng', GrowStep s.cfg s.job.toNat s.pers.toNat L a (s.attr a) s.rng new rng' ∧
        growOne L s a = .ok { s.setAttr a new with rng := rng' }) ∨
    growOne L s a = .error (.raised .table) := by
  rcases rangeAttr_ok_or_table s.cfg hj L a with ⟨rg, hr⟩ | hr
  · by_cases hah : ahead s.cfg (s.attr a) rg.upper = true
    · refine .inl ⟨addAndClamp (s.attr a) (aheadInc s.cfg s.rng).1 rg.lower, rngNext s.rng,
        ⟨rg, hr, .inl ⟨hah, rfl, ?_⟩⟩, ?_⟩
      · rw [addAndClamp_toNat, aheadInc_toNat]
      · unfold growOne; rw [hr]; simp only [bind, Except.bind, attrInc, hah]; rfl
    · have hah' : ahead s.cfg (s.attr a) rg.upper = false := by simpa using hah
      rcases increment_ok_or_table s.cfg hj L a with ⟨g, hg⟩ | hg
      · refine .inl ⟨addAndClamp (s.attr a)
          (growInc g (multinomialSum 136#8 31#8 s.rng) (s.cfg.factor s.pers.toNat a)) rg.lower, rngNext^[16] s.rng,
          ⟨rg, hr, .inr ⟨hah', rfl, g, _, hg, growthFactor_eq s.cfg hp a, ?_⟩⟩, ?_⟩
        · rw [addAndClamp_toNat]
        · unfold growOne
          rw [hr]
          simp only [bind, Except.bind, attrInc, hah', normalInc_eq s.cfg s.job.toNat L hp a s.rng, hg]
          rfl
      · refine .inr ?_
        unfold growOne
        rw [hr]
        simp only [bind, Except.bind, attrInc, hah', normalInc_eq s.cfg s.job.toNat L hp a s.rng, hg]
        rfl
  · refine .inr ?_
    unfold growOne
    rw [hr]; rfl

/-- A range that answers has read the increment of its own level (R161). -/
theorem increment_ok_of_rangeAttr (c : Cfg) {j L : Nat} (hj : j < c.njobs) (h2 : 2 ≤ L) {a : Attr} {rg : AttrRange}
    (hr : rangeAttr c j L a = .ok rg) : ∃ g, increment c j L a = .ok g := by
  rcases increment_ok_or_table c hj L a with h | h
  · exact h
  · exfalso
    have hs : sumIncr c j L a = .error (.raised .table) := by
      have hf := foldGrowth_of_table c hj a (List.range' 2 (L - 1)) 0#16
        ⟨L, by rw [List.mem_range'_1]; omega, h⟩
      rw [sumIncr, accumulate, hf]; rfl
    rw [rangeAttr_of_table c hj hs] at hr
    cases hr

/-- Where an attribute's range for the new level answers, its growth does. -/
theorem growOne_ok_of_range {L : Nat} (s : State) (a : Attr) (hj : s.job.toNat < s.cfg.njobs)
    (hp : s.pers.toNat < s.cfg.npers) (h2 : 2 ≤ L) (h : ∃ rg, rangeAttr s.cfg s.job.toNat L a = .ok rg) :
    ∃ new rng', GrowStep s.cfg s.job.toNat s.pers.toNat L a (s.attr a) s.rng new rng' ∧
        growOne L s a = .ok { s.setAttr a new with rng := rng' } := by
  obtain ⟨rg, hr⟩ := h
  obtain ⟨g, hg⟩ := increment_ok_of_rangeAttr s.cfg hj h2 hr
  rcases growOne_cases L s a hj hp with h | h
  · exact h
  · exfalso
    unfold growOne at h
    rw [hr] at h
    by_cases hah : ahead s.cfg (s.attr a) rg.upper = true
    · simp only [bind, Except.bind, attrInc, hah] at h
      cases h
    · simp only [bind, Except.bind, attrInc, hah, normalInc_eq s.cfg s.job.toNat L hp a s.rng, hg] at h
      cases h

/-! ## A whole level-up -/

theorem twiceTrunc_toNat (v : Fix88) : (twiceTrunc v).toNat = 2 * (v.toNat / 256) := by
  have := v.isLt
  simp only [twiceTrunc, trunc88_toNat, BitVec.toNat_ofNat]
  omega

/-- `derive()` (R169) for a job with a record. -/
theorem derive_eq (s : State) (hj : s.job.toNat < s.cfg.njobs) :
    derive s = .ok
      (if s.cfg.physBit s.job.toNat = 0#1
       then { s with maxhp := twiceTrunc s.vitality, maxmp := twiceTrunc s.intelligence }
       else { s with maxhp := twiceTrunc s.vitality }) := by
  rw [derive, phys_eq s.cfg hj]
  rfl

/-- The state after five attributes have grown, in order. -/
theorem growAll_eq (L : Nat) (s : State) :
    attrOrder.foldlM (growOne L) s =
      (do
        let s1 ← growOne L s .power
        let s2 ← growOne L s1 .speed
        let s3 ← growOne L s2 .vitality
        let s4 ← growOne L s3 .intelligence
        growOne L s4 .luck) := by
  simp only [attrOrder, List.foldlM_cons, List.foldlM_nil, bind_pure]

theorem levelUp_eq (s : State) :
    levelUp s =
      (do
        let s1 ← growOne (s.level.toNat + 1) s .power
        let s2 ← growOne (s.level.toNat + 1) s1 .speed
        let s3 ← growOne (s.level.toNat + 1) s2 .vitality
        let s4 ← growOne (s.level.toNat + 1) s3 .intelligence
        let s5 ← growOne (s.level.toNat + 1) s4 .luck
        let derived ← derive { s5 with level := BitVec.ofNat 7 (s.level.toNat + 1) }
        return derived.respond (BitVec.ofNat 32 (s.level.toNat + 1))) := by
  simp only [levelUp, growAll_eq, bind_assoc]

/-- What a level-up can answer for a character with a job and a personality that have records: a completed level-up
(R170), or TABLE. -/
theorem levelUp_cases (s : State) (hj : s.job.toNat < s.cfg.njobs) (hp : s.pers.toNat < s.cfg.npers)
    (hl : s.level.toNat < 99) :
    (∃ t, levelUp s = .ok t ∧ LevelUpTo s t) ∨ levelUp s = .error (.raised .table) := by
  rw [levelUp_eq]
  rcases growOne_cases (s.level.toNat + 1) s .power hj hp with ⟨n1, r1, g1, e1⟩ | e1
  swap; · exact .inr (by rw [e1]; rfl)
  rw [e1]; simp only [bind, Except.bind]
  rcases growOne_cases (s.level.toNat + 1) { s.setAttr .power n1 with rng := r1 } .speed hj hp with
    ⟨n2, r2, g2, e2⟩ | e2
  swap; · exact .inr (by rw [e2])
  rw [e2]; simp only
  rcases growOne_cases (s.level.toNat + 1)
    { ({ s.setAttr .power n1 with rng := r1 } : State).setAttr .speed n2 with rng := r2 } .vitality hj hp with
    ⟨n3, r3, g3, e3⟩ | e3
  swap; · exact .inr (by rw [e3])
  rw [e3]; simp only
  rcases growOne_cases (s.level.toNat + 1)
    { ({ ({ s.setAttr .power n1 with rng := r1 } : State).setAttr .speed n2 with rng := r2 } : State).setAttr .vitality
      n3 with rng := r3 } .intelligence hj hp with ⟨n4, r4, g4, e4⟩ | e4
  swap; · exact .inr (by rw [e4])
  rw [e4]; simp only
  rcases growOne_cases (s.level.toNat + 1)
    { ({ ({ ({ s.setAttr .power n1 with rng := r1 } : State).setAttr .speed n2 with rng := r2 } : State).setAttr
      .vitality n3 with rng := r3 } : State).setAttr .intelligence n4 with rng := r4 } .luck hj hp with
    ⟨n5, r5, g5, e5⟩ | e5
  swap; · exact .inr (by rw [e5])
  rw [e5]; simp only
  left
  rw [derive_eq _ (by exact hj)]
  refine ⟨_, rfl, ?_⟩
  have hlv : (BitVec.ofNat 7 (s.level.toNat + 1)).toNat = s.level.toNat + 1 := by
    rw [BitVec.toNat_ofNat]; omega
  by_cases hph : s.cfg.physBit s.job.toNat = 0#1
  · rw [if_pos (by exact hph)]
    exact
      { level := hlv, grown := ⟨r1, r2, r3, r4, g1, g2, g3, g4, g5⟩, maxhp := twiceTrunc_toNat n3,
        maxmp := ⟨fun _ => twiceTrunc_toNat n4, fun h => absurd (hph.symm.trans h) (by decide)⟩,
        resp := rfl, sex := rfl, pers := rfl, job := rfl, fault := rfl, cause := rfl, outside := ⟨rfl, rfl, rfl⟩ }
  · rw [if_neg (by exact hph)]
    exact
      { level := hlv, grown := ⟨r1, r2, r3, r4, g1, g2, g3, g4, g5⟩, maxhp := twiceTrunc_toNat n3,
        maxmp := ⟨fun h => absurd h hph, fun _ => rfl⟩,
        resp := rfl, sex := rfl, pers := rfl, job := rfl, fault := rfl, cause := rfl, outside := ⟨rfl, rfl, rfl⟩ }

/-- Where every attribute's range for the new level answers, a level-up does. -/
theorem levelUp_ok_of_ranges (s : State) (hj : s.job.toNat < s.cfg.njobs) (hp : s.pers.toNat < s.cfg.npers)
    (h1 : 1 ≤ s.level.toNat) (h : ∀ a, ∃ rg, rangeAttr s.cfg s.job.toNat (s.level.toNat + 1) a = .ok rg) :
    ∃ t, levelUp s = .ok t := by
  rw [levelUp_eq]
  have h2 : 2 ≤ s.level.toNat + 1 := by omega
  obtain ⟨n1, r1, _, e1⟩ := growOne_ok_of_range s .power hj hp h2 (h _)
  rw [e1]; simp only [bind, Except.bind]
  obtain ⟨n2, r2, _, e2⟩ := growOne_ok_of_range { s.setAttr .power n1 with rng := r1 } .speed hj hp h2 (h _)
  rw [e2]; simp only
  obtain ⟨n3, r3, _, e3⟩ := growOne_ok_of_range
    { ({ s.setAttr .power n1 with rng := r1 } : State).setAttr .speed n2 with rng := r2 } .vitality hj hp h2 (h _)
  rw [e3]; simp only
  obtain ⟨n4, r4, _, e4⟩ := growOne_ok_of_range
    { ({ ({ s.setAttr .power n1 with rng := r1 } : State).setAttr .speed n2 with rng := r2 } : State).setAttr .vitality
      n3 with rng := r3 } .intelligence hj hp h2 (h _)
  rw [e4]; simp only
  obtain ⟨n5, r5, _, e5⟩ := growOne_ok_of_range
    { ({ ({ ({ s.setAttr .power n1 with rng := r1 } : State).setAttr .speed n2 with rng := r2 } : State).setAttr
      .vitality n3 with rng := r3 } : State).setAttr .intelligence n4 with rng := r4 } .luck hj hp h2 (h _)
  rw [e5]; simp only
  rw [derive_eq _ (by exact hj)]
  exact ⟨_, rfl⟩

/-- Where the bands cover the new level, a level-up answers. -/
theorem levelUp_ok_of_covers (s : State) (hj : s.job.toNat < s.cfg.njobs) (hp : s.pers.toNat < s.cfg.npers)
    (hc : s.cfg.Covers s.job.toNat) (h1 : 1 ≤ s.level.toNat) (hl : s.level.toNat < 99) :
    ∃ t, levelUp s = .ok t :=
  levelUp_ok_of_ranges s hj hp h1 fun a => rangeAttr_ok_of_covers s.cfg hj hc (by omega) a

/-- A grown attribute is at least what it was, and at least its new lower bound (R172). -/
theorem GrowStep.bounds {c : Cfg} {j p L : Nat} {a : Attr} {cur new : Fix88} {rng rng' : Word}
    (h : GrowStep c j p L a cur rng new rng') :
    cur.toNat ≤ new.toNat ∧ ∃ rg, rangeAttr c j L a = .ok rg ∧ 256 * rg.lower.toNat ≤ new.toNat := by
  have := cur.isLt
  obtain ⟨rg, hr, ⟨_, _, h⟩ | ⟨_, _, g, f, _, _, h⟩⟩ := h
  · exact ⟨by omega, rg, hr, by omega⟩
  · exact ⟨by omega, rg, hr, by omega⟩

end Sys2Proof.Machine
end

