-- ==== Sys2Proof/Laws/Exec.lean ====
section
/-!
SUPPORT. What each command does outside the FAULT state and what any command but `STATUS` does inside it
(60_exceptions.md R214), one equation per constructor.
-/

namespace Sys2Proof.Machine

/-- In the FAULT state every command but `STATUS` is refused (R214). -/
theorem exec_of_fault {i : Instr} {s : State} (hi : i ≠ .status) (h : s.fault = 1#1) :
    exec i s = .next s.refuse := by
  cases i with
  | status => exact absurd rfl hi
  | _ => exact whenRunning_of_fault h _

theorem exec_status (s : State) : exec .status s = .next (s.respond s.statusWord) := rfl

section
variable {s : State} (h : s.fault = 0#1)
include h

theorem exec_rngSeed (v : Word) : exec (.rngSeed v) s = .next ({ s with rng := v }.respond 0#32) :=
  whenRunning_of_good h _

theorem exec_rngRead : exec .rngRead s = .next (s.respond s.rng) := whenRunning_of_good h _

theorem exec_randU :
    exec .randU s = .next ({ s with rng := rngNext s.rng }.respond (((rngNext s.rng).setWidth 8).setWidth 32)) :=
  whenRunning_of_good h _

theorem exec_randS (u : Byte) :
    exec (.randS u) s =
      .next ({ s with rng := rngNext s.rng }.respond ((randScaled u s.rng).1.setWidth 32)) :=
  whenRunning_of_good h _

theorem exec_randM_ok (o : Byte) {m : Byte} (hm : maskOk m = true) :
    exec (.randM o m) s =
      .next ({ s with rng := rngNext^[16] s.rng }.respond ((multinomialSum o m s.rng).setWidth 32)) := by
  refine (whenRunning_of_good h _).trans ?_
  rw [randMsum_of_ok hm]; rfl

theorem exec_randM_bad (o : Byte) {m : Byte} (hm : maskOk m = false) :
    exec (.randM o m) s = .next (s.afterFault 1#8) := by
  refine (whenRunning_of_good h _).trans ?_
  rw [randMsum_of_not_ok hm]
  exact congrArg _ (raiseFault_of_good s .mask h)

theorem exec_fxAdd (x y : Fix88) : exec (.fxAdd x y) s = .next (s.respond ((satAdd88 x y).setWidth 32)) :=
  whenRunning_of_good h _

theorem exec_fxSub (x y : Fix88) : exec (.fxSub x y) s = .next (s.respond ((satSub88 x y).setWidth 32)) :=
  whenRunning_of_good h _

theorem exec_fxMul (x y : Fix88) : exec (.fxMul x y) s = .next (s.respond ((mul88 x y).setWidth 32)) :=
  whenRunning_of_good h _

theorem exec_fxHalf (x : Fix88) : exec (.fxHalf x) s = .next (s.respond ((half88 x).setWidth 32)) :=
  whenRunning_of_good h _

theorem exec_fxW44 (g : Fix44) : exec (.fxW44 g) s = .next (s.respond ((widen44 g).setWidth 32)) :=
  whenRunning_of_good h _

theorem exec_fxW17 (f : Fix17) : exec (.fxW17 f) s = .next (s.respond ((widen17 f).setWidth 32)) :=
  whenRunning_of_good h _

theorem exec_fxTrunc (x : Fix88) :
    exec (.fxTrunc x) s = .next (s.respond (((trunc88 x).setWidth 16).setWidth 32)) :=
  whenRunning_of_good h _

theorem exec_fxFromint (n : Byte) : exec (.fxFromint n) s = .next (s.respond ((fromInt n).setWidth 32)) :=
  whenRunning_of_good h _

theorem exec_fxGinc (g : Fix44) (r : Byte) (f : Fix17) :
    exec (.fxGinc g r f) s = .next (s.respond ((growInc g r f).setWidth 32)) :=
  whenRunning_of_good h _

theorem exec_chWr (reg : Byte) (val : BitVec 16) :
    exec (.chWr reg val) s =
      match regOfField reg with
      | none => .next (s.raiseFault .illegal)
      | some r =>
        match s.writeReg r val with
        | .ok s' => .next (s'.respond 0#32)
        | .error c => .next (s.raiseFault c) :=
  whenRunning_of_good h _

theorem exec_chRd (reg : Byte) :
    exec (.chRd reg) s =
      match regOfField reg with
      | none => .next (s.raiseFault .illegal)
      | some r => .next (s.respond (s.readReg r)) :=
  whenRunning_of_good h _

theorem exec_lvlup_level (hl : 99 ≤ s.level.toNat) : exec .lvlup s = .next (s.afterFault 2#8) := by
  refine (whenRunning_of_good h _).trans ?_
  rw [if_pos hl]
  exact congrArg _ (raiseFault_of_good s .level h)

theorem exec_lvlup_run (hl : s.level.toNat < 99) : exec .lvlup s = complete s.leaveUnsaid (levelUp s) := by
  refine (whenRunning_of_good h _).trans ?_
  rw [if_neg (by omega)]

theorem exec_jobchg_table {j : Byte} (hj : s.cfg.njobs ≤ j.toNat) : exec (.jobchg j) s = .next (s.afterFault 3#8) := by
  refine (whenRunning_of_good h _).trans ?_
  rw [if_pos hj]
  exact congrArg _ (raiseFault_of_good s .table h)

theorem exec_perschg_table {p : Byte} (hp : s.cfg.npers ≤ p.toNat) :
    exec (.perschg p) s = .next (s.afterFault 3#8) := by
  refine (whenRunning_of_good h _).trans ?_
  rw [if_pos hp]
  exact congrArg _ (raiseFault_of_good s .table h)

theorem exec_perschg_ok {p : Byte} (hp : p.toNat < s.cfg.npers) :
    exec (.perschg p) s = .next ({ s with pers := p }.respond 0#32) := by
  refine (whenRunning_of_good h _).trans ?_
  rw [if_neg (by omega)]

theorem exec_jobchg_ok {j : Byte} (hj : j.toNat < s.cfg.njobs) :
    exec (.jobchg j) s =
      .next ({ s with
        level := 1#7, maxhp := s.maxhp >>> 1, maxmp := s.maxmp >>> 1, power := half88 s.power,
        speed := half88 s.speed, vitality := half88 s.vitality, intelligence := half88 s.intelligence,
        luck := half88 s.luck, job := j }.respond 0#32) := by
  refine (whenRunning_of_good h _).trans ?_
  rw [if_neg (by omega)]

theorem exec_range (l b : Byte) :
    exec (.range l b) s =
      match attrOfField b with
      | none => .next (s.raiseFault .illegal)
      | some a =>
        if l.toNat < 1 ∨ 99 < l.toNat then .next (s.raiseFault .level)
        else complete s (do
          let r ← rangeAttr s.cfg s.job.toNat l.toNat a
          return s.respond (packRange r)) :=
  whenRunning_of_good h _

end

/-- What a write of `CH_WR` leaves alone. -/
theorem writeReg_frame {s s' : State} {r : CReg} {v : BitVec 16} (h : s.writeReg r v = .ok s') :
    s'.rng = s.rng ∧ s'.fault = s.fault ∧ s'.cause = s.cause ∧ s'.resp = s.resp ∧ s'.cfg = s.cfg ∧
    s'.pending = s.pending ∧ s'.unsaid = s.unsaid := by
  cases r <;> simp only [State.writeReg] at h <;>
    first
    | (split at h <;> first | (cases h; done) | (cases h; exact ⟨rfl, rfl, rfl, rfl, rfl, rfl, rfl⟩))
    | (cases h; exact ⟨by simp, by simp, by simp, by simp, by simp, by simp, by simp⟩)

end Sys2Proof.Machine
end

