-- ==== Sys2Proof/Laws/Memory.lean ====
section
/-!
SUPPORT. The canonical form of a memory and what reading it gives. The block writes no memory (20_memory.md R50), so
`Memory.ofBytes`, the loader's, is the only operation that makes one.
-/

namespace Sys2Proof

theorem Memory.ofBytes_address_ge (base : Nat) (bytes : List Byte) :
    ∀ cell ∈ Memory.ofBytes base bytes, base ≤ cell.1 := by
  induction bytes generalizing base with
  | nil => simp [Memory.ofBytes]
  | cons b bytes ih =>
    intro cell h
    simp only [Memory.ofBytes] at h
    split at h
    · have := ih (base + 1) cell h; omega
    · rcases List.mem_cons.mp h with rfl | h
      · exact Nat.le_refl _
      · have := ih (base + 1) cell h; omega

theorem Memory.ofBytes_address_lt (base : Nat) (bytes : List Byte) :
    ∀ cell ∈ Memory.ofBytes base bytes, cell.1 < base + bytes.length := by
  induction bytes generalizing base with
  | nil => simp [Memory.ofBytes]
  | cons b bytes ih =>
    intro cell h
    simp only [Memory.ofBytes] at h
    simp only [List.length_cons]
    split at h
    · have := ih (base + 1) cell h; omega
    · rcases List.mem_cons.mp h with rfl | h
      · omega
      · have := ih (base + 1) cell h; omega

/-- The loader's memory is in canonical form. -/
theorem Memory.ofBytes_wf (base : Nat) (bytes : List Byte) : (Memory.ofBytes base bytes).wf := by
  induction bytes generalizing base with
  | nil => simp [Memory.ofBytes, Memory.wf]
  | cons b bytes ih =>
    simp only [Memory.ofBytes]
    split
    · exact ih (base + 1)
    · rename_i hb
      refine ⟨List.pairwise_cons.mpr ⟨fun cell h => ?_, (ih (base + 1)).1⟩, ?_⟩
      · have := Memory.ofBytes_address_ge (base + 1) bytes cell h
        show base < cell.1
        omega
      · intro cell h
        rcases List.mem_cons.mp h with rfl | h
        · exact hb
        · exact (ih (base + 1)).2 cell h

/-- Two canonical memories, the second above the first, make one. -/
theorem Memory.wf_append {m n : Memory} (hm : m.wf) (hn : n.wf)
    (h : ∀ c ∈ m, ∀ d ∈ n, c.1 < d.1) : Memory.wf (m ++ n) := by
  refine ⟨List.pairwise_append.mpr ⟨hm.1, hn.1, h⟩, fun cell hc => ?_⟩
  rcases List.mem_append.mp hc with hc | hc
  · exact hm.2 cell hc
  · exact hn.2 cell hc

/-- An address no entry lists reads as `unlisted`. -/
theorem Memory.read_of_not_listed (m : Memory) (a : Nat) (h : ∀ cell ∈ m, cell.1 ≠ a) :
    m.read a = Memory.unlisted := by
  induction m with
  | nil => rfl
  | cons c m ih =>
    obtain ⟨k, b⟩ := c
    have hk : k ≠ a := h (k, b) (List.mem_cons_self ..)
    simp only [Memory.read, hk, if_false]
    exact ih fun cell hc => h cell (List.mem_cons_of_mem _ hc)

/-- Reading what the loader wrote. -/
theorem Memory.read_ofBytes (base : Nat) (bytes : List Byte) (i : Nat) (h : i < bytes.length) :
    (Memory.ofBytes base bytes).read (base + i) = bytes[i] := by
  induction bytes generalizing base i with
  | nil => simp at h
  | cons b bytes ih =>
    cases i with
    | zero =>
      simp only [Memory.ofBytes, Nat.add_zero, List.getElem_cons_zero]
      split
      · rename_i hb
        rw [hb]
        exact Memory.read_of_not_listed _ _ fun cell hc => by
          have := Memory.ofBytes_address_ge (base + 1) bytes cell hc; omega
      · simp [Memory.read]
    | succ i =>
      have hi : i < bytes.length := by simpa using h
      have e : base + (i + 1) = base + 1 + i := by omega
      simp only [Memory.ofBytes, List.getElem_cons_succ]
      split
      · rw [e]; exact ih (base + 1) i hi
      · have : base ≠ base + (i + 1) := by omega
        simp only [Memory.read, this, if_false]
        rw [e]; exact ih (base + 1) i hi

/-- Below its first address a canonical memory lists nothing. -/
theorem Memory.read_below {k : Nat} {b : Byte} {m : Memory} (h : Memory.wf ((k, b) :: m)) {a : Nat} (ha : a ≤ k) :
    m.read a = Memory.unlisted :=
  Memory.read_of_not_listed m a fun cell hc => by
    have := (List.pairwise_cons.mp h.1).1 cell hc
    simp only at this; omega

theorem Memory.wf_tail {c : Host.Cell} {m : Memory} (h : Memory.wf (c :: m)) : m.wf :=
  ⟨(List.pairwise_cons.mp h.1).2, fun d hd => h.2 d (List.mem_cons_of_mem _ hd)⟩

/-- Canonical memories that read alike are the same data. -/
theorem Memory.eq_of_read_eq {m n : Memory} (hm : m.wf) (hn : n.wf) (h : ∀ a, m.read a = n.read a) : m = n := by
  induction m generalizing n with
  | nil =>
    cases n with
    | nil => rfl
    | cons d n =>
      have := h d.1
      simp only [Memory.read, if_true] at this
      exact absurd this.symm (hn.2 d (List.mem_cons_self ..))
  | cons c m ih =>
    cases n with
    | nil =>
      have := h c.1
      simp only [Memory.read, if_true] at this
      exact absurd this (hm.2 c (List.mem_cons_self ..))
    | cons d n =>
      obtain ⟨k, b⟩ := c
      obtain ⟨l, e⟩ := d
      have hb : b ≠ Memory.unlisted := hm.2 (k, b) (List.mem_cons_self ..)
      have he : e ≠ Memory.unlisted := hn.2 (l, e) (List.mem_cons_self ..)
      have hk : k = l := by
        rcases Nat.lt_trichotomy k l with hlt | heq | hlt
        · have hr := h k
          have : l ≠ k := by omega
          simp only [Memory.read, if_true, this, if_false, Memory.read_below hn (Nat.le_of_lt hlt)] at hr
          exact absurd hr hb
        · exact heq
        · have hr := h l
          have : k ≠ l := by omega
          simp only [Memory.read, if_true, this, if_false, Memory.read_below hm (Nat.le_of_lt hlt)] at hr
          exact absurd hr.symm he
      subst hk
      have hbe : b = e := by simpa [Memory.read] using h k
      subst hbe
      rw [ih (Memory.wf_tail hm) (Memory.wf_tail hn) fun a => by
        by_cases ha : k = a
        · subst ha
          rw [Memory.read_below hm (Nat.le_refl _), Memory.read_below hn (Nat.le_refl _)]
        · simpa [Memory.read, ha] using h a]
end Sys2Proof
end

