-- ==== Sys2Proof/Laws/PerInstr.lean ====
section
/-!
SUPPORT. Statements about every instruction as syntax, one lemma per constructor. `TableRow`: the instruction's command
word has its row's `match` under its row's `mask` (30_encoding.md R84), the numbers copied from opcode_table.json.
-/

namespace Sys2Proof.Laws.TableRow

/-- `mask` and `match` of the instruction's row of opcode_table.json. -/
def maskOf : Instr → CommandWord
  | .status => 0xFFFFFFFFFF#40
  | .rngSeed _ => 0xFF00000000#40
  | .rngRead => 0xFFFFFFFFFF#40
  | .randU => 0xFFFFFFFFFF#40
  | .randS _ => 0xFFFFFFFF00#40
  | .randM _ _ => 0xFFFFFF0000#40
  | .fxAdd _ _ => 0xFF00000000#40
  | .fxSub _ _ => 0xFF00000000#40
  | .fxMul _ _ => 0xFF00000000#40
  | .fxHalf _ => 0xFFFFFF0000#40
  | .fxW44 _ => 0xFFFFFFFF00#40
  | .fxW17 _ => 0xFFFFFFFF00#40
  | .fxTrunc _ => 0xFFFFFF0000#40
  | .fxFromint _ => 0xFFFFFFFF00#40
  | .fxGinc _ _ _ => 0xFFFF000000#40
  | .chWr _ _ => 0xFFFF000000#40
  | .chRd _ => 0xFFFF00FFFF#40
  | .lvlup => 0xFFFFFFFFFF#40
  | .jobchg _ => 0xFFFFFFFF00#40
  | .perschg _ => 0xFFFFFFFF00#40
  | .range _ _ => 0xFFFFFF0000#40

def matchOf : Instr → CommandWord
  | .status => 0x0100000000#40
  | .rngSeed _ => 0x1000000000#40
  | .rngRead => 0x1100000000#40
  | .randU => 0x1400000000#40
  | .randS _ => 0x1500000000#40
  | .randM _ _ => 0x1600000000#40
  | .fxAdd _ _ => 0x2000000000#40
  | .fxSub _ _ => 0x2100000000#40
  | .fxMul _ _ => 0x2200000000#40
  | .fxHalf _ => 0x2300000000#40
  | .fxW44 _ => 0x2400000000#40
  | .fxW17 _ => 0x2500000000#40
  | .fxTrunc _ => 0x2600000000#40
  | .fxFromint _ => 0x2700000000#40
  | .fxGinc _ _ _ => 0x2800000000#40
  | .chWr _ _ => 0x3000000000#40
  | .chRd _ => 0x3100000000#40
  | .lvlup => 0x3200000000#40
  | .jobchg _ => 0x3300000000#40
  | .perschg _ => 0x3400000000#40
  | .range _ _ => 0x3500000000#40

/-- The word of `i` lies in `i`'s row: `(cmd & mask) == match` (R84). -/
def Statement (i : Instr) : Prop := encode i &&& maskOf i = matchOf i

/-- The bits of a word `op ++ arg` under a row's mask `0xFF ++ reserved`: the opcode alone, if no reserved bit of
`arg` is one. -/
theorem and_row_mask (op : Byte) (arg res : Word) (h : arg &&& res = 0#32) :
    ((op ++ arg) &&& (0xFF#8 ++ res) : CommandWord) = op ++ 0#32 := by
  rw [BitVec.and_append, h, show (0xFF#8 : Byte) = BitVec.allOnes 8 from rfl, BitVec.and_allOnes]

/-- The arguments of each format have no reserved bit (R81, R91). -/
theorem argB_reserved (a : Byte) : argB a &&& (0xFFFFFF#24 ++ 0#8) = 0#32 := by
  rw [argB, BitVec.and_append, BitVec.zero_and, BitVec.and_zero]; rfl

theorem argBB_reserved (a b : Byte) : argBB a b &&& (0xFFFF#16 ++ 0#8 ++ 0#8) = 0#32 := by
  rw [argBB, BitVec.and_append, BitVec.and_append, BitVec.zero_and, BitVec.and_zero, BitVec.and_zero]; rfl

theorem argBBB_reserved (a b c : Byte) : argBBB a b c &&& (0xFF#8 ++ 0#8 ++ 0#8 ++ 0#8) = 0#32 := by
  rw [argBBB, BitVec.and_append, BitVec.and_append, BitVec.and_append, BitVec.zero_and, BitVec.and_zero,
    BitVec.and_zero, BitVec.and_zero]
  rfl

theorem argH_reserved (x : BitVec 16) : argH x &&& (0xFFFF#16 ++ 0#16) = 0#32 := by
  rw [argH, BitVec.and_append, BitVec.zero_and, BitVec.and_zero]; rfl

theorem argRV_reserved (reg : Byte) (val : BitVec 16) : argRV reg val &&& (0xFF#8 ++ 0#8 ++ 0#16) = 0#32 := by
  rw [argRV, BitVec.and_append, BitVec.and_append, BitVec.zero_and, BitVec.and_zero, BitVec.and_zero]; rfl

theorem argR_reserved (reg : Byte) : argRV reg 0#16 &&& (0xFF#8 ++ 0#8 ++ 0xFFFF#16) = 0#32 := by
  rw [argRV, BitVec.and_append, BitVec.and_append, BitVec.zero_and, BitVec.and_zero, BitVec.zero_and]; rfl

theorem status : Statement .status := by unfold Statement; decide
theorem rngSeed (imm32 : Word) : Statement (.rngSeed imm32) :=
  and_row_mask _ _ _ BitVec.and_zero
theorem rngRead : Statement .rngRead := by unfold Statement; decide
theorem randU : Statement .randU := by unfold Statement; decide
theorem randS (upper : Byte) : Statement (.randS upper) :=
  and_row_mask _ _ _ (argB_reserved upper)
theorem randM (offset : Byte) (mask : Byte) : Statement (.randM offset mask) :=
  and_row_mask _ _ _ (argBB_reserved offset mask)
theorem fxAdd (x : Fix88) (y : Fix88) : Statement (.fxAdd x y) :=
  and_row_mask _ _ _ BitVec.and_zero
theorem fxSub (x : Fix88) (y : Fix88) : Statement (.fxSub x y) :=
  and_row_mask _ _ _ BitVec.and_zero
theorem fxMul (x : Fix88) (y : Fix88) : Statement (.fxMul x y) :=
  and_row_mask _ _ _ BitVec.and_zero
theorem fxHalf (x : Fix88) : Statement (.fxHalf x) :=
  and_row_mask _ _ _ (argH_reserved x)
theorem fxW44 (g : Byte) : Statement (.fxW44 g) :=
  and_row_mask _ _ _ (argB_reserved g)
theorem fxW17 (f : Byte) : Statement (.fxW17 f) :=
  and_row_mask _ _ _ (argB_reserved f)
theorem fxTrunc (x : Fix88) : Statement (.fxTrunc x) :=
  and_row_mask _ _ _ (argH_reserved x)
theorem fxFromint (n : Byte) : Statement (.fxFromint n) :=
  and_row_mask _ _ _ (argB_reserved n)
theorem fxGinc (g : Byte) (r : Byte) (f : Byte) : Statement (.fxGinc g r f) :=
  and_row_mask _ _ _ (argBBB_reserved g r f)
theorem chWr (reg : Byte) (val : BitVec 16) : Statement (.chWr reg val) :=
  and_row_mask _ _ _ (argRV_reserved reg val)
theorem chRd (reg : Byte) : Statement (.chRd reg) :=
  and_row_mask _ _ _ (argR_reserved reg)
theorem lvlup : Statement .lvlup := by unfold Statement; decide
theorem jobchg (job : Byte) : Statement (.jobchg job) :=
  and_row_mask _ _ _ (argB_reserved job)
theorem perschg (pers : Byte) : Statement (.perschg pers) :=
  and_row_mask _ _ _ (argB_reserved pers)
theorem range (level : Byte) (attr : Byte) : Statement (.range level attr) :=
  and_row_mask _ _ _ (argBB_reserved level attr)

end Sys2Proof.Laws.TableRow
end

