-- ==== Sys2Proof/Tests/Slice0.lean ====
section
/-!
SUPPORT. Tests. Expected results come from the spec: words from 30_encoding.md R80, R81, R85, R94, results from the
vectors of 95_test_vectors.md, cited as its section or vector number. Then, for every obligation with hypotheses, a
witness that meets them.
-/

namespace Sys2Proof.Tests
open Sys2Proof.Machine

/-! ## Small states and views -/

/-- The character of V-LV4: job 1, personality 0, level 10, RNG at its reset value. -/
def hero : State :=
  { State.reset with
    job := 1#8, level := 10#7, maxhp := 100#16, maxmp := 7#16, power := 0x6400#16, speed := 0x0100#16,
    vitality := 0x3000#16, intelligence := 0xFF80#16, luck := 0x0000#16 }

/-- The character of V-LV1: job 0, personality 1, level 1. -/
def novice : State :=
  { State.reset with
    pers := 1#8, maxhp := 38#16, maxmp := 24#16, power := 0x0A00#16, speed := 0x0800#16, vitality := 0x1300#16,
    intelligence := 0x0C00#16, luck := 0x0500#16 }

/-- The character of V-LV7 under a given `AHEAD_CMP`: personality 0, Power 30.5. -/
def aboveCurve (c : AheadCmp) : State :=
  { novice with pers := 0#8, power := 0x1E80#16, cfg := { T0.cfg with aheadCmp := c } }

/-- A character whose tables hold no band at all. -/
def bandless : State := { hero with cfg := { T0.cfg with jobrom := [] } }

/-- Tables with eight Power bands in job 0 that all end at level 50. -/
def lowBands : Cfg := { T0.cfg with jobrom := Memory.ofBytes 16 (List.replicate 16 50#8) }

/-- A block in the FAULT state. -/
def faulted : State := hero.afterFault 3#8

def nextOf : Host.Outcome State Fault Refusal → Option State
  | .next s => some s
  | _ => none

/-- The response of one command, as status and data. -/
def answer (i : Instr) (s : State) : Option Response := (nextOf (exec i s)).bind State.resp

/-- The response of one presented word. -/
def wordAnswer (w : CommandWord) (s : State) : Option Response := (nextOf (step (s.present w))).bind State.resp

def ok (data : Word) : Option Response := some ⟨.ok, data⟩
def flt (cause : Word) : Option Response := some ⟨.fault, cause⟩

/-- LEVEL, MAXHP, MAXMP, the five attributes, RNG. -/
def sheet (s : State) : Nat × Nat × Nat × List Fix88 × Word :=
  (s.level.toNat, s.maxhp.toNat, s.maxmp.toNat, [s.power, s.speed, s.vitality, s.intelligence, s.luck], s.rng)

/-! ## WellFormed refuses ill-formed terms (R92) -/

theorem test_wellFormed_refuses_chWr_6 : (Instr.chWr 6#8 0#16).wellFormed = false := by decide
theorem test_wellFormed_refuses_chRd_13 : (Instr.chRd 13#8).wellFormed = false := by decide
theorem test_wellFormed_refuses_range_attr_5 : (Instr.range 22#8 5#8).wellFormed = false := by decide
theorem test_wellFormed_accepts_the_edges :
    (Instr.chWr 12#8 0#16).wellFormed = true ∧ (Instr.chRd 8#8).wellFormed = true ∧
    (Instr.range 0#8 4#8).wellFormed = true := by decide

/-! ## Decoding: one word of every command, its bits written out (R80, R81, R85, R94) -/

theorem test_decode_status : decode 0x0100000000#40 = .ok .status := by decide
theorem test_decode_rngSeed : decode 0x10DEADBEEF#40 = .ok (.rngSeed 0xDEADBEEF#32) := by decide
theorem test_decode_rngRead : decode 0x1100000000#40 = .ok .rngRead := by decide
theorem test_decode_randU : decode 0x1400000000#40 = .ok .randU := by decide
theorem test_decode_randS : decode 0x1500000010#40 = .ok (.randS 16#8) := by decide
theorem test_decode_randM : decode 0x1600001E88#40 = .ok (.randM 136#8 30#8) := by decide
theorem test_decode_fxAdd : decode 0x200FC01234#40 = .ok (.fxAdd 0x1234#16 0x0FC0#16) := by decide
theorem test_decode_fxSub : decode 0x2100011300#40 = .ok (.fxSub 0x1300#16 0x0001#16) := by decide
theorem test_decode_fxMul : decode 0x2200800333#40 = .ok (.fxMul 0x0333#16 0x0080#16) := by decide
theorem test_decode_fxHalf : decode 0x2300000301#40 = .ok (.fxHalf 0x0301#16) := by decide
theorem test_decode_fxW44 : decode 0x2400000018#40 = .ok (.fxW44 0x18#8) := by decide
theorem test_decode_fxW17 : decode 0x25000000B3#40 = .ok (.fxW17 0xB3#8) := by decide
theorem test_decode_fxTrunc : decode 0x26000014E0#40 = .ok (.fxTrunc 0x14E0#16) := by decide
theorem test_decode_fxFromint : decode 0x2700000013#40 = .ok (.fxFromint 19#8) := by decide
theorem test_decode_fxGinc : decode 0x2800B3AD18#40 = .ok (.fxGinc 0x18#8 0xAD#8 0xB3#8) := by decide
theorem test_decode_chWr : decode 0x30000A1300#40 = .ok (.chWr 10#8 0x1300#16) := by decide
theorem test_decode_chRd : decode 0x31000C0000#40 = .ok (.chRd 12#8) := by decide
theorem test_decode_lvlup : decode 0x3200000000#40 = .ok .lvlup := by decide
theorem test_decode_jobchg : decode 0x3300000002#40 = .ok (.jobchg 2#8) := by decide
theorem test_decode_perschg : decode 0x3400000001#40 = .ok (.perschg 1#8) := by decide
theorem test_decode_range : decode 0x3500000264#40 = .ok (.range 100#8 2#8) := by decide

/-- The table's numbering is the command word's own. -/
theorem test_decodeTableWord : decodeTableWord 40 0x3500000216 = some (.range 22#8 2#8) := by decide

/-- `withFetchWord` makes the word the next command (S1). -/
theorem test_withFetchWord :
    (nextOf (step (State.reset.withFetchWord 40 0x1400000000))).map (fun t => (t.resp, t.rng)) =
      some (ok 0xC7#32, 0xE21259C7#32) := by decide

/-! ## Assembler text (R94) and pseudo-commands (R95) -/

theorem test_assemble_names :
    assemble "CH_RD ATTR2 ; read it" = some 0x31000A0000#40 ∧ assemble "RANGE 22, VITALITY" = some 0x3500000216#40 ∧
    assemble "FX_ADD 0x0FC0, 0x0fc0" = some 0x200FC00FC0#40 ∧ assemble "RAND_S 1F" = none := by
  decide
theorem test_pseudo_rngDefault : Pseudo.rngDefault.expand.map encode = [0x10AAE21259#40] := by decide

/-! ## BitOps and RNG (sections 1 and 2 of the vectors) -/

theorem test_extract : extract 0xAAE21259#32 16 32 = 0xAAE20000#32 ∧ extract 0xFFFFFFFF#32 8 16 = 0x0000FF00#32 ∧
    extract 0xFFFFFFFF#32 5 5 = 0#32 ∧ rangeBits 0x0001C70C#32 8 16 = 0xC7#32 := by decide
theorem test_maskOk : [0x00#8, 0x01#8, 0x1F#8, 0xFF#8].all maskOk = true ∧
    [0x02#8, 0x1E#8, 0x20#8, 0x80#8, 0xFE#8].any maskOk = false := by decide
theorem test_isPowerOfTwo : [1#16, 2#16, 4#16, 128#16, 256#16].all isPowerOfTwo = true ∧
    [0#16, 3#16, 6#16, 255#16].any isPowerOfTwo = false := by decide
theorem test_rngNext :
    [0x00000001#32, 0xFFFFFFFF#32, 0x80000000#32, 0x00800000#32, 0x00000020#32, 0x00001000#32, 0xDEADBEEF#32].map
      rngNext =
    [0x00000100#32, 0xFFFFFF00#32, 0x00000000#32, 0x80000001#32, 0x00002001#32, 0x00100080#32, 0xADBEEF4A#32] := by
  decide
theorem test_rngSeed : (nextOf (exec (.rngSeed 0xFFFFFFFF#32) hero)).map (fun t => (t.rng, t.resp)) =
    some (0xFFFFFFFF#32, ok 0#32) := by decide
theorem test_rngRead : answer .rngRead State.reset = ok 0xAAE21259#32 := by decide
theorem test_randU : (nextOf (exec .randU hero)).map (fun t => (t.rng, t.resp)) =
    some (0xE21259C7#32, ok 0xC7#32) := by decide
theorem test_randS_16 : answer (.randS 16#8) hero = ok 13#32 := by decide
theorem test_randS_255 : answer (.randS 255#8) hero = ok 199#32 := by decide
theorem test_randM : (nextOf (exec (.randM 250#8 7#8) hero)).map (fun t => (t.rng, t.resp)) =
    some (0x593AF063#32, ok 0x2F#32) := by decide
theorem test_randM_mask : (nextOf (exec (.randM 136#8 30#8) hero)).map (fun t => (t.rng, t.resp)) =
    some (0xAAE21259#32, flt 1#32) := by decide

/-! ## Fixed point (section 4.1, 4.2) -/

theorem test_fxAdd : answer (.fxAdd 0xFF00#16 0x0100#16) hero = ok 0xFFFF#32 ∧
    answer (.fxAdd 0x1234#16 0x0FC0#16) hero = ok 0x21F4#32 := by decide
theorem test_fxSub : answer (.fxSub 0x0080#16 0x0100#16) hero = ok 0#32 ∧
    answer (.fxSub 0x1300#16 0x0001#16) hero = ok 0x12FF#32 := by decide
theorem test_fxMul : answer (.fxMul 0x0333#16 0x0080#16) hero = ok 0x0199#32 ∧
    answer (.fxMul 0x1000#16 0x1000#16) hero = ok 0xFFFF#32 := by decide
theorem test_fxHalf : answer (.fxHalf 0xFFFF#16) hero = ok 0x7FFF#32 := by decide
theorem test_fxW44 : answer (.fxW44 0xFF#8) hero = ok 0x0FF0#32 := by decide
theorem test_fxW17 : answer (.fxW17 0xB3#8) hero = ok 0x0166#32 := by decide
theorem test_fxTrunc : answer (.fxTrunc 0x14E0#16) hero = ok 20#32 := by decide
theorem test_fxFromint : answer (.fxFromint 255#8) hero = ok 0xFF00#32 := by decide
theorem test_fxGinc : answer (.fxGinc 0x18#8 0xAD#8 0xB3#8) hero = ok 0x02CC#32 := by decide
theorem test_fxGinc_drops_the_carry : answer (.fxGinc 0xFF#8 0x81#8 0x80#8) hero = ok 0#32 := by decide

/-! ## Growth (sections 4.3, 4.4) and the faults of section 4.5 -/

theorem test_range : answer (.range 22#8 2#8) State.reset = ok 0x007F4429#32 := by decide +kernel
theorem test_range_level_100 : wordAnswer 0x3500000264#40 State.reset = flt 2#32 := by decide

/-- V-LV1. -/
theorem test_lvlup_normal : (nextOf (exec .lvlup novice)).map sheet =
    some (2, 40, 24, [0x0CCC#16, 0x08CC#16, 0x14E0#16, 0x0C43#16, 0x059D#16], 0x1D1A01EA#32) := by decide +kernel
/-- V-LV4: both paths, the clamp, the saturating add, a physical job. -/
theorem test_lvlup_ahead : (nextOf (exec .lvlup hero)).map sheet =
    some (11, 100, 7, [0x6500#16, 0x0A00#16, 0x32F0#16, 0xFFFF#16, 0x0400#16], 0x40232DA7#32) := by decide +kernel
/-- V-LV7, `FLOOR`. -/
theorem test_ahead_floor : (nextOf (exec .lvlup (aboveCurve .floor))).map sheet =
    some (2, 40, 24, [0x2080#16, 0x0900#16, 0x14E0#16, 0x0C60#16, 0x0590#16], 0x1D1A01EA#32) := by decide +kernel
/-- V-JC1, from the end of V-LV4. -/
theorem test_jobchg : ((nextOf (exec .lvlup hero)).bind fun t => nextOf (exec (.jobchg 0#8) t)).map sheet =
    some (1, 50, 3, [0x3280#16, 0x0500#16, 0x1978#16, 0x7FFF#16, 0x0200#16], 0x40232DA7#32) := by decide +kernel
theorem test_jobchg_no_record : wordAnswer 0x3300000002#40 State.reset = flt 3#32 := by decide
theorem test_perschg : (nextOf (exec (.perschg 1#8) hero)).map State.pers = some 1#8 := by decide
theorem test_perschg_no_record : wordAnswer 0x3400000002#40 State.reset = flt 3#32 := by decide
theorem test_chWr : (nextOf (exec (.chWr 10#8 0x1300#16) State.reset)).map (fun t => (t.vitality, t.resp)) =
    some (0x1300#16, ok 0#32) := by decide
theorem test_chWr_faults :
    [0x3000000064#40, 0x3000030002#40, 0x30000D0000#40, 0x3001000001#40].map (wordAnswer · State.reset) =
      [flt 2#32, flt 3#32, flt 4#32, flt 4#32] := by decide
theorem test_chRd : answer (.chRd 11#8) hero = ok 0xFF80#32 := by decide
theorem test_chRd_6 : wordAnswer 0x3100060000#40 State.reset = flt 4#32 := by decide
theorem test_illegal_words :
    [0x0000000000#40, 0xFFFFFFFFFF#40, 0x1400000001#40, 0x2801000000#40, 0x3100000001#40, 0x3500000501#40].map
      (wordAnswer · State.reset) = List.replicate 6 (flt 4#32) := by decide
/-- R200: STATUS after a TABLE fault reads 0x00000301, and the refused command answers the same cause. -/
theorem test_status : answer .status faulted = ok 0x0301#32 ∧ answer .randU faulted = flt 3#32 := by decide
/-- R83: the 33-bit response word, its status bit where log 13 puts it. -/
theorem test_responseWord : responseWord ⟨.fault, 4#32⟩ = 0x100000004#33 := by decide
/-- R240: reset leaves the FAULT state. -/
theorem test_reset_clears : (nextOf (step { faulted with pending := [.reset] })).map
    (fun t => (t.statusWord, t.level.toNat, t.power, t.rng)) = some (0#32, 1, 0x0000#16, 0xAAE21259#32) := by decide

/-! ## Witnesses: states that meet the hypotheses of the obligations -/

theorem hero_good : hero.Good := rfl
theorem novice_good : novice.Good := rfl
theorem bandless_good : bandless.Good := rfl
theorem faulted_fault : faulted.fault = 1#1 := rfl

theorem t0_legal : T0.cfg.Legal :=
  ⟨by decide, by decide, by decide, by decide,
   Memory.wf_append (Memory.ofBytes_wf _ _) (Memory.ofBytes_wf _ _) fun c hc d hd => by
     have h1 := Memory.ofBytes_address_lt _ _ c hc
     have h2 := Memory.ofBytes_address_ge _ _ d hd
     have : T0.job0.length = 96 := rfl
     omega,
   Memory.ofBytes_wf _ _, by decide +kernel, by decide⟩

theorem hero_legal : hero.Legal :=
  ⟨by decide, by decide, by decide, by decide, by decide, by decide, t0_legal⟩
theorem novice_legal : novice.Legal :=
  ⟨by decide, by decide, by decide, by decide, by decide, by decide, t0_legal⟩
theorem bandless_legal : bandless.Legal :=
  ⟨by decide, by decide, by decide, by decide, by decide, by decide,
   ⟨by decide, by decide, by decide, by decide, by decide, t0_legal.persrom_wf, by decide, t0_legal.persrom_inside⟩⟩

/-- Whether a band reaches level `l` before the first zero bound, as a computation. -/
def reaches (c : Cfg) (j : Nat) (a : Attr) (l : Nat) : Bool :=
  (List.range 8).any fun k => decide (l ≤ c.bound j a k) && (List.range k).all fun k' => c.bound j a k' != 0

theorem covers_of_reaches {c : Cfg} {j : Nat}
    (h : ∀ a ∈ attrOrder, ∀ l ∈ List.range 100, reaches c j a l = true) : c.Covers j := fun a l _ h99 => by
  have ha : a ∈ attrOrder := by cases a <;> decide
  have hr := h a ha l (List.mem_range.mpr (by omega))
  obtain ⟨k, hk, hb⟩ := List.any_eq_true.mp hr
  have hb' := (Bool.and_eq_true _ _).mp hb
  exact ⟨k, List.mem_range.mp hk, of_decide_eq_true hb'.1, fun k' hk' => by
    simpa using List.all_eq_true.mp hb'.2 k' (List.mem_range.mpr hk')⟩

theorem t0_covers_0 : T0.cfg.Covers 0 := covers_of_reaches (by decide +kernel)
theorem t0_covers_1 : T0.cfg.Covers 1 := covers_of_reaches (by decide +kernel)

/-- A next state with a property, found by computing. -/
theorem next_of_any {o : Host.Outcome State Fault Refusal} {p : State → Bool} (h : (nextOf o).any p = true) :
    ∃ t, o = .next t ∧ p t = true := by
  cases o with
  | next t => exact ⟨t, rfl, h⟩
  | fault _ => cases h
  | refused _ => cases h

/-- `hero` at the last two levels. -/
def veteran : State := { hero with level := 98#7 }
def master : State := { hero with level := 99#7 }
theorem veteran_legal : veteran.Legal :=
  ⟨by decide, by decide, by decide, by decide, by decide, by decide, t0_legal⟩
theorem master_legal : master.Legal :=
  ⟨by decide, by decide, by decide, by decide, by decide, by decide, t0_legal⟩
theorem heroPresented_legal : (hero.present 0x3200000000#40).Legal :=
  ⟨by decide, by decide, by decide, by decide, by decide, by decide, t0_legal⟩

theorem witness_EncodeOfDecodeIsTheWord : decode 0x3500000264#40 = .ok (.range 100#8 2#8) := by decide

theorem witness_DecodeFollowsTheTableRows :
    (∃ r ∈ opcodeMap, 0x160000FFFF#40 &&& r.mask = r.matchWord) ∧
    (∀ r ∈ opcodeMap, 0x1600010000#40 &&& r.mask ≠ r.matchWord) := by decide

theorem witness_FieldsAreTheStatedBits :
    (0xFF#32).toNat < 2 ^ 8 ∧ (0xFFFF#32).toNat < 2 ^ 16 ∧ (0xFFFFFF#32).toNat < 2 ^ 24 ∧
    (0xFF0000#32).toNat < 2 ^ 24 ∧ (0xFF0000#32).toNat % 2 ^ 16 = 0 := by decide

theorem witness_UnassignedOpcodesAreIllegal :
    (∀ op ∈ [0x00#8, 0x02#8, 0x0F#8, 0x12#8, 0x13#8, 0x17#8, 0x1F#8, 0x29#8, 0x2F#8, 0x36#8, 0xFF#8],
      (op.toNat = 0x00 ∨ (0x02 ≤ op.toNat ∧ op.toNat ≤ 0x0F) ∨ op.toNat = 0x12 ∨ op.toNat = 0x13 ∨
        (0x17 ≤ op.toNat ∧ op.toNat ≤ 0x1F) ∨ (0x29 ≤ op.toNat ∧ op.toNat ≤ 0x2F) ∨ 0x36 ≤ op.toNat)) ∧
    hero.Good := ⟨by decide, hero_good⟩

theorem witness_ReservedBitsAreIllegal :
    (∃ r ∈ opcodeMap, r.mnemonic = "CH_RD" ∧ 0x00000001#32 &&& r.format.reservedMask ≠ 0#32 ∧
      0x01000000#32 &&& r.format.reservedMask ≠ 0#32) ∧ hero.Good := ⟨by decide, hero_good⟩

theorem witness_FieldsThatSelectNothingAreIllegal :
    (∀ reg ∈ [6#8, 7#8, 13#8, 255#8], reg.toNat = 6 ∨ reg.toNat = 7 ∨ 13 ≤ reg.toNat) ∧
    (∀ attr ∈ [5#8, 255#8], 4 < attr.toNat) ∧ hero.Good := ⟨by decide, by decide, hero_good⟩

theorem witness_ChInitBuildsTheCharacter :
    hero.Good ∧ 1 ≤ (99#16).toNat ∧ (99#16).toNat ≤ 99 ∧ (1#16).toNat ≤ 1 ∧ (1#16).toNat < hero.cfg.npers ∧
    hero.cfg.npers ≤ 256 ∧ (1#16).toNat < hero.cfg.njobs ∧ hero.cfg.njobs ≤ 256 :=
  ⟨hero_good, by decide, by decide, by decide, by decide, by decide, by decide, by decide⟩

theorem witness_StepRunsTheDecodedCommand :
    ((hero.present 0x3200000000#40).pending = .command 0x3200000000#40 :: [] ∧
      decode 0x3200000000#40 = .ok .lvlup) ∧
    ((hero.present 0x1200000000#40).pending = .command 0x1200000000#40 :: [] ∧
      decode 0x1200000000#40 = .error (.unassignedOpcode 0x12#8) ∧
      (hero.present 0x1200000000#40).Good) ∧
    ({ hero with pending := [.reset] } : State).pending = .reset :: [] ∧ hero.pending = [] :=
  ⟨⟨rfl, by decide⟩, ⟨rfl, by decide, rfl⟩, rfl, rfl⟩

theorem witness_FirstAnswersAfterReset : ∀ reg ∈ [1#8, 5#8, 8#8, 12#8],
    (1 ≤ reg.toNat ∧ reg.toNat ≤ 5) ∨ (8 ≤ reg.toNat ∧ reg.toNat ≤ 12) := by decide

theorem witness_StepKeepsLegalStates :
    (hero.present 0x3200000000#40).Legal ∧ ∃ t, step (hero.present 0x3200000000#40) = .next t :=
  ⟨heroPresented_legal, (next_of_any (p := fun t => t.level.toNat = 11) (by decide +kernel)).imp fun _ h => h.1⟩

theorem witness_ResetStateIsLegal : T0.cfg.Legal := t0_legal

theorem witness_LegalStatesAlwaysAnswer :
    (hero.present 0x3200000000#40).Legal ∧
    (hero.present 0x3200000000#40).pending = .command 0x3200000000#40 :: [] := ⟨heroPresented_legal, rfl⟩

theorem witness_TablesNeverChange : ∃ t, step (hero.present 0x3300000000#40) = .next t :=
  (next_of_any (p := fun t => t.job = 0#8) (by decide)).imp fun _ h => h.1

theorem witness_OnlyListedCommandsWriteRegisters :
    hero.Good ∧ (∃ t, exec (.chRd 5#8) hero = .next t ∧ t.Good) ∧ (∀ v, Instr.chRd 5#8 ≠ .rngSeed v) ∧
    (∀ r v, Instr.chRd 5#8 ≠ .chWr r v) ∧ (∀ j, Instr.chRd 5#8 ≠ .jobchg j) ∧ Instr.chRd 5#8 ≠ .lvlup :=
  ⟨hero_good, ⟨_, rfl, rfl⟩, by simp, by simp, by simp, by simp⟩

theorem witness_SexHasNoEffect :
    (∀ reg, Instr.chRd 4#8 = .chRd reg → reg ≠ 3#8) ∧ ∃ t, exec (.chRd 4#8) hero = .next t :=
  ⟨fun reg h => by cases h; decide, ⟨_, rfl⟩⟩

theorem witness_FaultEntryAndTheFaultState : hero.fault = 0#1 ∧ faulted.fault = 1#1 := ⟨rfl, rfl⟩

theorem witness_FaultStateIsAbsorbing : faulted.fault = 1#1 := rfl

theorem witness_FaultStateHidesTheCharacter :
    faulted.fault = 1#1 ∧ (novice.afterFault 3#8).fault = 1#1 ∧ faulted.cause = (novice.afterFault 3#8).cause ∧
    faulted ≠ novice.afterFault 3#8 := ⟨rfl, rfl, rfl, by decide⟩

theorem witness_FaultsArePrecise :
    (hero.Good ∧ (∃ t, exec (.randM 136#8 30#8) hero = .next t ∧ t.fault = 1#1) ∧
      (Instr.randM 136#8 30#8 = .lvlup → hero.level.toNat = 99)) ∧
    (master.Good ∧ (∃ t, exec .lvlup master = .next t ∧ t.fault = 1#1) ∧ master.level.toNat = 99) :=
  ⟨⟨hero_good, ⟨_, rfl, rfl⟩, fun h => by cases h⟩, ⟨rfl, ⟨_, rfl, rfl⟩, by decide⟩⟩

theorem witness_CausesByCommand :
    hero.Good ∧ (∃ t, exec (.randM 136#8 32#8) hero = .next t ∧ t.fault = 1#1) ∧
    (∃ t, exec (.chWr 0#8 100#16) hero = .next t ∧ t.fault = 1#1) ∧
    (∃ t, exec (.jobchg 2#8) hero = .next t ∧ t.fault = 1#1) ∧
    (∃ t, exec (.range 100#8 5#8) hero = .next t ∧ t.fault = 1#1) :=
  ⟨hero_good, ⟨_, rfl, rfl⟩, ⟨_, rfl, rfl⟩, ⟨_, rfl, rfl⟩, ⟨_, rfl, rfl⟩⟩

theorem witness_FaultResponsesCarryTheCause :
    ∃ t r, step (hero.present 0x1200000000#40) = .next t ∧ t.resp = some r ∧ r.status = .fault :=
  ⟨_, _, rfl, rfl, rfl⟩

theorem witness_StatusAnswersTheLatch :
    0x00000001#32 ≠ 0#32 ∧ 0x80000000#32 ≠ 0#32 ∧ faulted.fault = 1#1 := by decide

theorem witness_ExtractAndRangeSelectBits : (5 ≤ 5 ∧ 5 ≤ 32) ∧ (0 ≤ 32 ∧ 32 ≤ 32) := by decide

theorem witness_RngSeedLoadsAndRngReadAnswers : hero.Good ∧ 0x00000001#32 ≠ 0#32 := ⟨hero_good, by decide⟩

theorem witness_RandUAnswersTheNewLowByte : hero.Good ∧ 0x00000001#32 ≠ 0#32 := ⟨hero_good, by decide⟩

theorem witness_RandSScalesTheDraw : hero.Good ∧ 2 ^ 8 ≤ (0x100#32).toNat := ⟨hero_good, by decide⟩

theorem witness_RandMSumsSixteenDraws :
    hero.Good ∧ 2 ^ 16 ≤ (0x10000#32).toNat ∧ (∃ k, k ≤ 8 ∧ (255#8).toNat = 2 ^ k - 1) ∧
    (∃ k, k ≤ 8 ∧ (0#8).toNat = 2 ^ k - 1) ∧ ¬ ∃ k, k ≤ 8 ∧ (30#8).toNat = 2 ^ k - 1 :=
  ⟨hero_good, by decide, ⟨8, by decide⟩, ⟨0, by decide⟩, by
    rintro ⟨k, hk, h⟩
    have : ∀ k ≤ 8, (30#8).toNat ≠ 2 ^ k - 1 := by decide
    exact this k hk h⟩

theorem witness_TransitionsPerCommand :
    (hero.Good ∧ hero.Legal ∧ ∃ t, exec .randU hero = .next t) ∧
    (novice.Good ∧ novice.Legal ∧ ∃ t, exec .lvlup novice = .next t ∧ t.fault = 0#1) ∧
    (∃ t, exec .rngRead hero = .next t) ∧ ∀ v, Instr.rngRead ≠ .rngSeed v :=
  ⟨⟨hero_good, hero_legal, ⟨_, rfl⟩⟩,
   ⟨novice_good, novice_legal,
    (next_of_any (p := fun t => t.fault = 0#1) (by decide +kernel)).imp fun _ h => ⟨h.1, of_decide_eq_true h.2⟩⟩,
   ⟨_, rfl⟩, by simp⟩

theorem witness_CloneReplaysTheStream :
    hero.Good ∧ novice.Good ∧ exec .rngRead hero = .next (hero.afterOk (0xAAE21259#32).toNat) ∧
    (∃ t', exec (.rngSeed 0xAAE21259#32) novice = .next t') ∧
    ∀ i ∈ [Instr.rngRead, .randU, .randS 0#8, .randM 0#8 255#8],
      i = .rngRead ∨ i = .randU ∨ (∃ u, i = .randS u) ∨ ∃ o m, i = .randM o m :=
  ⟨hero_good, novice_good, rfl, ⟨_, rfl⟩, by simp⟩

theorem witness_StateZeroIsAbsorbing :
    ({ hero with rng := 0#32 } : State).Good ∧ ({ hero with rng := 0#32 } : State).rng = 0#32 ∧
    maskOk 31#8 = true := ⟨rfl, rfl, by decide⟩

theorem witness_FxAddAndFxSubSaturate : hero.Good := hero_good
theorem witness_FxMulFloorsAndSaturates : hero.Good := hero_good
theorem witness_FxHalfFloors : hero.Good ∧ 2 ^ 16 ≤ (0x10000#32).toNat := ⟨hero_good, by decide⟩
theorem witness_FxConversionsKeepTheValue :
    hero.Good ∧ 2 ^ 8 ≤ (0x100#32).toNat ∧ 2 ^ 16 ≤ (0x10000#32).toNat := ⟨hero_good, by decide, by decide⟩
theorem witness_FxGincRunsThePipe : hero.Good ∧ 2 ^ 24 ≤ (0x1000000#32).toNat := ⟨hero_good, by decide⟩

theorem witness_QueriesReadTheirBytes : 1 < T0.cfg.njobs ∧ 1 < T0.cfg.npers ∧ 1 ≤ 1 := by decide

/-- Clause 1 in slot 0 at level 2, where slots 0 and 1 meet, and in the last slot at level 99; clause 2 with no band at
all at level 2, and with eight bands that all end below level 99; clause 3. -/
theorem witness_IncrementIsTheFirstReachingBand :
    (0 < T0.cfg.njobs ∧ 0 < bandless.cfg.njobs ∧ 0 < lowBands.njobs ∧ 2 ≤ 2 ∧ 99 ≤ 99) ∧
    (0 < 8 ∧ (∀ k' ≤ 0, T0.cfg.bound 0 .power k' ≠ 0) ∧ (∀ k' < 0, T0.cfg.bound 0 .power k' < 2) ∧
      2 ≤ T0.cfg.bound 0 .power 0 ∧ 10 ≤ T0.cfg.bound 0 .power 0) ∧
    (1 < 8 ∧ (∀ k' ≤ 1, T0.cfg.bound 0 .power k' ≠ 0) ∧ (∀ k' < 1, T0.cfg.bound 0 .power k' < 11) ∧
      11 ≤ T0.cfg.bound 0 .power 1) ∧
    (4 < 8 ∧ (∀ k' ≤ 4, T0.cfg.bound 0 .power k' ≠ 0) ∧ (∀ k' < 4, T0.cfg.bound 0 .power k' < 99) ∧
      99 ≤ T0.cfg.bound 0 .power 4) ∧
    (∀ k, k < 8 → (∀ k' ≤ k, bandless.cfg.bound 0 .power k' ≠ 0) → bandless.cfg.bound 0 .power k < 2) ∧
    (∀ k, k < 8 → lowBands.bound 0 .power k ≠ 0 ∧ lowBands.bound 0 .power k < 99) ∧ T0.cfg.Covers 0 :=
  ⟨by decide, by decide, by decide, by decide, by decide, by decide, t0_covers_0⟩

theorem witness_SumOfIncrementsTruncatesOnce :
    0 < T0.cfg.njobs ∧ (∀ t, 2 ≤ t → t ≤ 2 → increment T0.cfg 0 t .power = .ok 0x18#8) ∧
    (∃ t, 2 ≤ t ∧ t ≤ 2 ∧ increment bandless.cfg 0 t .power = .error (.raised .table)) :=
  ⟨by decide, fun t h1 h2 => by obtain rfl : t = 2 := by omega
                                rfl,
   ⟨2, by decide, by decide, rfl⟩⟩

theorem witness_RangeFormulas :
    0 < T0.cfg.njobs ∧ sumIncr T0.cfg 0 2 .power = .ok 1#8 ∧ sumIncr T0.cfg 0 1 .power = .ok 0#8 ∧
    0 < bandless.cfg.njobs ∧ sumIncr bandless.cfg 0 2 .power = .error (.raised .table) :=
  ⟨by decide, rfl, rfl, by decide, rfl⟩

theorem witness_RangeInvariantNeedsAPositiveStandard :
    0 < T0.cfg.njobs ∧ rangeAttr T0.cfg 0 1 .power = .ok ⟨8#8, 10#8, 27#8⟩ ∧ 1 ≤ (T0.cfg.init 0 .power).toNat :=
  ⟨by decide, rfl, by decide⟩

theorem witness_RangeAnswersThePackedRange :
    hero.Good ∧ hero.job.toNat < hero.cfg.njobs ∧ 2 ^ 16 ≤ (0x10000#32).toNat ∧ 4 < (5#8).toNat ∧
    ((4#8).toNat ≤ 4 ∧ (0#8).toNat < 1 ∧ 99 < (100#8).toNat) ∧
    ((4#8).toNat = attrIndex .luck ∧ (0#8).toNat = attrIndex .power ∧ 1 ≤ (1#8).toNat ∧ (99#8).toNat ≤ 99) ∧
    rangeAttr hero.cfg hero.job.toNat (1#8).toNat .luck = .ok ⟨3#8, 4#8, 21#8⟩ ∧
    (∀ r, rangeAttr bandless.cfg bandless.job.toNat (2#8).toNat .luck ≠ .ok r) ∧
    hero.cfg.Covers hero.job.toNat :=
  ⟨hero_good, by decide, by decide, by decide, by decide, by decide, rfl, fun _ h => (by cases h),
   t0_covers_1⟩

theorem witness_AheadTestFollowsTheParameter :
    T0.cfg.aheadCmp = .full ∧ (aboveCurve .floor).cfg.aheadCmp = .floor := ⟨rfl, rfl⟩

theorem witness_LvlupCompletes :
    (novice.Legal ∧ novice.Good ∧ novice.level.toNat < 99 ∧
      (novice.cfg.Covers novice.job.toNat ∨
        ∀ a, ∃ r, rangeAttr novice.cfg novice.job.toNat (novice.level.toNat + 1) a = .ok r)) ∧
    (∀ a, ∃ r, rangeAttr novice.cfg novice.job.toNat (novice.level.toNat + 1) a = .ok r) ∧
    (veteran.Legal ∧ veteran.Good ∧ veteran.level.toNat < 99 ∧ veteran.cfg.Covers veteran.job.toNat) :=
  ⟨⟨novice_legal, novice_good, by decide, .inl t0_covers_0⟩, fun a => by cases a <;> exact ⟨_, rfl⟩,
   ⟨veteran_legal, rfl, by decide, t0_covers_1⟩⟩

theorem witness_LvlupFaults :
    (master.Legal ∧ master.Good ∧ master.level.toNat = 99) ∧
    (bandless.Legal ∧ bandless.Good ∧ bandless.level.toNat < 99 ∧
      ∃ a, ∀ r, rangeAttr bandless.cfg bandless.job.toNat (bandless.level.toNat + 1) a ≠ .ok r) ∧
    0x00000001#32 ≠ 0#32 :=
  ⟨⟨master_legal, rfl, by decide⟩, ⟨bandless_legal, bandless_good, by decide, .power, fun r h => by cases h⟩,
   by decide⟩

theorem witness_LvlupTransitionCount :
    hero.Legal ∧ hero.Good ∧ ∃ t, exec .lvlup hero = .next t ∧ t.Good :=
  ⟨hero_legal, hero_good,
   (next_of_any (p := fun t => t.fault = 0#1) (by decide +kernel)).imp fun _ h => ⟨h.1, of_decide_eq_true (p := _ = 0#1) h.2⟩⟩

theorem witness_LvlupNeverLowersAnAttribute :
    veteran.Legal ∧ veteran.Good ∧ ∃ t, exec .lvlup veteran = .next t ∧ t.Good :=
  ⟨veteran_legal, rfl,
   (next_of_any (p := fun t => t.fault = 0#1) (by decide +kernel)).imp fun _ h => ⟨h.1, of_decide_eq_true (p := _ = 0#1) h.2⟩⟩

theorem witness_JobchgHalvesAndResets :
    hero.Good ∧ (1#8).toNat < hero.cfg.njobs ∧ hero.cfg.njobs ≤ (2#8).toNat ∧ 2 ^ 8 ≤ (0x100#32).toNat :=
  ⟨hero_good, by decide, by decide, by decide⟩

theorem witness_PerschgAssigns :
    hero.Good ∧ (1#8).toNat < hero.cfg.npers ∧ hero.cfg.npers ≤ (2#8).toNat ∧ 2 ^ 8 ≤ (0x100#32).toNat :=
  ⟨hero_good, by decide, by decide, by decide⟩

theorem witness_ChWrChecksAndWrites :
    hero.Good ∧ 2 ^ 24 ≤ (0x1000000#32).toNat ∧ (1 ≤ (1#16).toNat ∧ (99#16).toNat ≤ 99) ∧
    ((0#16).toNat < 1 ∧ 99 < (100#16).toNat) ∧ ((1#16).toNat ≤ 1 ∧ 1 < (2#16).toNat) ∧
    ((1#16).toNat < hero.cfg.npers ∧ hero.cfg.npers ≤ (2#16).toNat) ∧
    ((1#16).toNat < hero.cfg.njobs ∧ hero.cfg.njobs ≤ (2#16).toNat) ∧
    ((6#8).toNat = 6 ∧ (7#8).toNat = 7 ∧ 13 ≤ (13#8).toNat) :=
  ⟨hero_good, by decide, by decide, by decide, by decide, by decide, by decide, by decide⟩

theorem witness_ChRdAnswersTheRegister :
    hero.Good ∧ (2 ^ 24 ≤ (0x1000000#32).toNat ∧ (0x00000001#32).toNat % 2 ^ 16 ≠ 0) ∧
    ((6#8).toNat = 6 ∧ (7#8).toNat = 7 ∧ 13 ≤ (13#8).toNat) := ⟨hero_good, by decide, by decide⟩

theorem witness_ChRdReadsWhatChWrWrote :
    hero.Good ∧ hero.cfg.Legal ∧ ∃ t, exec (.chWr 0#8 99#16) hero = .next t ∧ t.Good :=
  ⟨hero_good, t0_legal, ⟨_, rfl, rfl⟩⟩

end Sys2Proof.Tests
end

/-! ## What a command can end in (60_exceptions.md R214) -/

namespace Sys2Proof.Machine

/-- What command `i` can end in from a good state `s`: one constructor per way of writing registers. -/
inductive Ends (s : State) : Instr → State → Prop
  | answers {i : Instr} (d : Word) : Ends s i (s.respond d)
  | raises {i : Instr} (c : Cause) : Ends s i (s.raiseFault c)
  | seeds (v : Word) : Ends s (.rngSeed v) ({ s with rng := v }.respond 0#32)
  | draws {i : Instr} (r d : Word) (hi : i = .randU ∨ (∃ u, i = .randS u) ∨ ∃ o m, i = .randM o m) :
      Ends s i ({ s with rng := r }.respond d)
  | writes {reg : Byte} {val : BitVec 16} {r : CReg} {s' : State} (h : s.writeReg r val = .ok s') :
      Ends s (.chWr reg val) (s'.respond 0#32)
  | levelsUp {t : State} (hl : s.level.toNat < 99) (h : levelUp s = .ok t) : Ends s .lvlup t
  | leavesUnsaid (c : Cause) : Ends s .lvlup (s.leaveUnsaid.raiseFault c)
  | changesJob {j : Byte} (hj : j.toNat < s.cfg.njobs) :
      Ends s (.jobchg j) ({ s with
        level := 1#7, maxhp := s.maxhp >>> 1, maxmp := s.maxmp >>> 1, power := half88 s.power,
        speed := half88 s.speed, vitality := half88 s.vitality, intelligence := half88 s.intelligence,
        luck := half88 s.luck, job := j }.respond 0#32)
  | changesPers {p : Byte} (hp : p.toNat < s.cfg.npers) : Ends s (.perschg p) ({ s with pers := p }.respond 0#32)

/-- A computation that answers has answered at each of its parts. -/
theorem bind_eq_ok {ε α β : Type} {x : Except ε α} {f : α → Except ε β} {b : β} (h : x >>= f = .ok b) :
    ∃ a, x = .ok a ∧ f a = .ok b := by
  cases x with
  | error e => cases h
  | ok a => exact ⟨a, rfl, h⟩

section
variable {s t : State}

/-- Fault entry from a good state, as the equations of the commands write it. -/
theorem ends_afterFault {i : Instr} (hg : s.fault = 0#1) (c : Cause) : Ends s i (s.afterFault (causeCode c)) :=
  raiseFault_of_good s c hg ▸ .raises c

theorem ends_of_answerFix {v : Fix88} (hg : s.fault = 0#1) (h : answerFix s v = .next t) (i : Instr) :
    Ends s i t := by
  rw [answerFix, whenRunning_of_good hg] at h
  cases h
  exact .answers _

theorem ends_of_randM {o m : Byte} (hg : s.fault = 0#1) (h : exec (.randM o m) s = .next t) :
    Ends s (.randM o m) t := by
  cases hm : maskOk m with
  | true =>
    rw [exec_randM_ok hg o hm] at h
    cases h
    exact .draws _ _ (.inr (.inr ⟨o, m, rfl⟩))
  | false =>
    rw [exec_randM_bad hg o hm] at h
    cases h
    exact ends_afterFault hg .mask

theorem ends_of_chWr {reg : Byte} {val : BitVec 16} (hg : s.fault = 0#1) (h : exec (.chWr reg val) s = .next t) :
    Ends s (.chWr reg val) t := by
  rw [exec_chWr hg] at h
  split at h
  next => cases h; exact .raises _
  next r _ =>
    split at h
    next s' hw => cases h; exact .writes hw
    next => cases h; exact .raises _

theorem ends_of_chRd {reg : Byte} (hg : s.fault = 0#1) (h : exec (.chRd reg) s = .next t) : Ends s (.chRd reg) t := by
  rw [exec_chRd hg] at h
  split at h
  · cases h; exact .raises _
  · cases h; exact .answers _

theorem ends_of_lvlup (hg : s.fault = 0#1) (h : exec .lvlup s = .next t) : Ends s .lvlup t := by
  rcases Nat.lt_or_ge s.level.toNat 99 with hl | hl
  · rw [exec_lvlup_run hg hl] at h
    rcases complete_next h with h | ⟨c, -, rfl⟩
    · exact .levelsUp hl h
    · exact .leavesUnsaid c
  · rw [exec_lvlup_level hg hl] at h
    cases h
    exact ends_afterFault hg .level

theorem ends_of_jobchg {j : Byte} (hg : s.fault = 0#1) (h : exec (.jobchg j) s = .next t) : Ends s (.jobchg j) t := by
  rcases Nat.lt_or_ge j.toNat s.cfg.njobs with hj | hj
  · rw [exec_jobchg_ok hg hj] at h
    cases h
    exact .changesJob hj
  · rw [exec_jobchg_table hg hj] at h
    cases h
    exact ends_afterFault hg .table

theorem ends_of_perschg {p : Byte} (hg : s.fault = 0#1) (h : exec (.perschg p) s = .next t) :
    Ends s (.perschg p) t := by
  rcases Nat.lt_or_ge p.toNat s.cfg.npers with hp | hp
  · rw [exec_perschg_ok hg hp] at h
    cases h
    exact .changesPers hp
  · rw [exec_perschg_table hg hp] at h
    cases h
    exact ends_afterFault hg .table

theorem ends_of_range {l b : Byte} (hg : s.fault = 0#1) (h : exec (.range l b) s = .next t) :
    Ends s (.range l b) t := by
  rw [exec_range hg] at h
  split at h
  next => cases h; exact .raises _
  next a _ =>
    split at h
    next => cases h; exact .raises _
    next =>
      rcases complete_next h with h | ⟨c, -, rfl⟩
      · obtain ⟨r, -, h⟩ := bind_eq_ok h
        cases h
        exact .answers _
      · exact .raises c

/-- What a command that answers from a good state has done: the inversion the claims about single registers rest on. -/
theorem exec_ends {i : Instr} (hg : s.fault = 0#1) (h : exec i s = .next t) : Ends s i t := by
  cases i
  case status => cases h; exact .answers _
  case rngSeed v => rw [exec_rngSeed hg] at h; cases h; exact .seeds v
  case rngRead => rw [exec_rngRead hg] at h; cases h; exact .answers _
  case randU => rw [exec_randU hg] at h; cases h; exact .draws _ _ (.inl rfl)
  case randS u => rw [exec_randS hg] at h; cases h; exact .draws _ _ (.inr (.inl ⟨u, rfl⟩))
  case randM => exact ends_of_randM hg h
  case fxAdd | fxSub | fxMul | fxHalf | fxW44 | fxW17 | fxTrunc | fxFromint | fxGinc => exact ends_of_answerFix hg h _
  case chWr => exact ends_of_chWr hg h
  case chRd => exact ends_of_chRd hg h
  case lvlup => exact ends_of_lvlup hg h
  case jobchg => exact ends_of_jobchg hg h
  case perschg => exact ends_of_perschg hg h
  case range => exact ends_of_range hg h

end

/-- An illegal command raises `ILLEGAL`; in the FAULT state that is a refusal (R214). -/
theorem illegalCommand_eq (s : State) : illegalCommand s = .next (s.raiseFault .illegal) := by
  by_cases hf : s.fault = 0#1
  · exact whenRunning_of_good hf _
  · have hf := fault_eq_one_of_ne s hf
    rw [illegalCommand_of_fault hf, raiseFault_of_fault s _ hf]

/-- What running a command word can answer: what some command answers, or `ILLEGAL` raised. -/
theorem runWord_next {w : CommandWord} {s t : State} (h : runWord w s = .next t) :
    (∃ i, exec i s = .next t) ∨ t = s.raiseFault .illegal := by
  cases hd : decode w with
  | ok i => exact .inl ⟨i, runWord_of_ok hd s ▸ h⟩
  | error e =>
    rw [runWord_of_error hd, illegalCommand_eq] at h
    cases h
    exact .inr rfl

/-! ## Legal states (10_state.md R24, R28, R31) -/

/-- Legality reads five registers and the configuration only. -/
theorem State.Legal.of_same {s t : State} (h : s.Legal) (hlevel : t.level = s.level) (hpers : t.pers = s.pers)
    (hjob : t.job = s.job) (hcause : t.cause = s.cause) (hfault : t.fault = s.fault) (hcfg : t.cfg = s.cfg) :
    t.Legal where
  level_ge := hlevel ▸ h.level_ge
  level_le := hlevel ▸ h.level_le
  pers_lt := hcfg ▸ hpers ▸ h.pers_lt
  job_lt := hcfg ▸ hjob ▸ h.job_lt
  cause_code := hcause ▸ h.cause_code
  cause_none := hcause ▸ hfault ▸ h.cause_none
  cfg_legal := hcfg ▸ h.cfg_legal

theorem respond_legal {s : State} (h : s.Legal) (d : Word) : (s.respond d).Legal :=
  h.of_same rfl rfl rfl rfl rfl rfl

theorem refuse_legal {s : State} (h : s.Legal) : s.refuse.Legal :=
  h.of_same rfl rfl rfl rfl rfl rfl

theorem causeCode_legal (c : Cause) : causeCodeLegal (causeCode c) := by cases c <;> decide

/-- No fault has the code of `NONE` (R211). -/
theorem causeCode_ne_none (c : Cause) : causeCode c ≠ 0#8 := by cases c <;> decide

/-- Fault entry keeps a state legal: the first fault latches a code other than `NONE`, a later one latches nothing. -/
theorem raiseFault_legal {s : State} (h : s.Legal) (c : Cause) : (s.raiseFault c).Legal := by
  by_cases hf : s.fault = 0#1
  · rw [raiseFault_of_good s c hf]
    exact
      { h with
        cause_code := causeCode_legal c
        cause_none := ⟨fun hc => absurd hc (causeCode_ne_none c), fun hf => absurd hf (show 1#1 ≠ 0#1 by decide)⟩ }
  · rw [raiseFault_of_fault s c (fault_eq_one_of_ne s hf)]
    exact refuse_legal h

/-- A free value reduced modulo the number of records names a record: at most 256 records fit an identifier byte. -/
theorem ofNat_mod_lt {n : Nat} (v : Nat) (hpos : 1 ≤ n) (hle : n ≤ 256) : (BitVec.ofNat 8 (v % n)).toNat < n := by
  have := Nat.mod_lt v hpos
  rw [BitVec.toNat_ofNat]
  omega

/-- The free values of a late TABLE fault are legal register values (log 5). -/
theorem leaveUnsaid_legal {s : State} (h : s.Legal) : s.leaveUnsaid.Legal := by
  have hlevel : s.leaveUnsaid.level.toNat = 1 + Config.unsaidLevel s.unsaid % 99 := by
    have := Nat.mod_lt (Config.unsaidLevel s.unsaid) (show 0 < 99 by decide)
    rw [State.leaveUnsaid, BitVec.toNat_ofNat]
    omega
  exact
    { level_ge := by omega
      level_le := by omega
      pers_lt := ofNat_mod_lt _ h.cfg_legal.npers_pos h.cfg_legal.npers_le
      job_lt := ofNat_mod_lt _ h.cfg_legal.njobs_pos h.cfg_legal.njobs_le
      cause_code := h.cause_code
      cause_none := h.cause_none
      cfg_legal := h.cfg_legal }

theorem resetWith_legal {c : Cfg} (hc : c.Legal) : (State.resetWith c).Legal where
  level_ge := Nat.le_refl 1
  level_le := by show 1 ≤ 99; decide
  pers_lt := hc.npers_pos
  job_lt := hc.njobs_pos
  cause_code := Nat.zero_le 4
  cause_none := ⟨fun _ => rfl, fun _ => rfl⟩
  cfg_legal := hc

theorem applyReset_legal {s : State} (h : s.cfg.Legal) : s.applyReset.Legal :=
  (resetWith_legal h).of_same rfl rfl rfl rfl rfl rfl

/-- A checked write that answers has passed its check. -/
theorem of_checked_eq_ok {ε α : Type} {p : Prop} [Decidable p] {e : ε} {a b : α}
    (h : (if p then .error e else .ok a : Except ε α) = .ok b) : ¬ p ∧ b = a := by
  split at h
  · cases h
  · cases h; exact ⟨‹_›, rfl⟩

/-- `CH_WR` refuses the values that are not legal in a register, and truncates none of the others (R82, R176). -/
theorem writeReg_legal {s s' : State} (h : s.Legal) {r : CReg} {v : BitVec 16} (hw : s.writeReg r v = .ok s') :
    s'.Legal := by
  have hnp := h.cfg_legal.npers_le
  have hnj := h.cfg_legal.njobs_le
  cases r with
  | level =>
    obtain ⟨hv, rfl⟩ := of_checked_eq_ok hw
    have hval : (v.setWidth 7).toNat = v.toNat := by rw [BitVec.toNat_setWidth]; omega
    exact { h with level_ge := by dsimp only; omega, level_le := by dsimp only; omega }
  | maxhp | maxmp => cases hw; exact h.of_same rfl rfl rfl rfl rfl rfl
  | sex =>
    obtain ⟨-, rfl⟩ := of_checked_eq_ok hw
    exact h.of_same rfl rfl rfl rfl rfl rfl
  | pers =>
    obtain ⟨hv, rfl⟩ := of_checked_eq_ok hw
    exact { h with pers_lt := by dsimp only; rw [BitVec.toNat_setWidth]; omega }
  | job =>
    obtain ⟨hv, rfl⟩ := of_checked_eq_ok hw
    exact { h with job_lt := by dsimp only; rw [BitVec.toNat_setWidth]; omega }
  | attr a => cases hw; exact h.of_same (by simp) (by simp) (by simp) (by simp) (by simp) (by simp)

/-- A completed level-up moves LEVEL up by one, from below 99, and keeps the other registers legality reads. -/
theorem levelUp_legal {s t : State} (h : s.Legal) (hl : s.level.toNat < 99) (hu : levelUp s = .ok t) :
    t.Legal := by
  have hto : LevelUpTo s t := by
    rcases levelUp_cases s h.job_lt h.pers_lt hl with ⟨t', ht', hto⟩ | he
    · cases hu.symm.trans ht'; exact hto
    · cases hu.symm.trans he
  have hlevel := hto.level
  obtain ⟨hcfg, -, -⟩ := hto.outside
  exact
    { level_ge := by omega
      level_le := by omega
      pers_lt := hcfg ▸ hto.pers ▸ h.pers_lt
      job_lt := hcfg ▸ hto.job ▸ h.job_lt
      cause_code := hto.cause ▸ h.cause_code
      cause_none := hto.cause ▸ hto.fault ▸ h.cause_none
      cfg_legal := hcfg ▸ h.cfg_legal }

/-- Every way a command can end keeps a state legal. -/
theorem ends_legal {s t : State} {i : Instr} (h : s.Legal) (he : Ends s i t) : t.Legal := by
  cases he with
  | answers d => exact respond_legal h d
  | raises c => exact raiseFault_legal h c
  | seeds v => exact h.of_same rfl rfl rfl rfl rfl rfl
  | draws r d hi => exact h.of_same rfl rfl rfl rfl rfl rfl
  | writes hw => exact respond_legal (writeReg_legal h hw) _
  | levelsUp hl hu => exact levelUp_legal h hl hu
  | leavesUnsaid c => exact raiseFault_legal (leaveUnsaid_legal h) c
  | changesJob hj =>
    exact { h with level_ge := Nat.le_refl 1, level_le := by show 1 ≤ 99; decide, job_lt := hj }
  | changesPers hp => exact { h with pers_lt := hp }

theorem exec_legal {s t : State} {i : Instr} (h : s.Legal) (he : exec i s = .next t) : t.Legal := by
  by_cases hf : s.fault = 0#1
  · exact ends_legal h (exec_ends hf he)
  · by_cases hi : i = .status
    · subst hi
      cases he
      exact respond_legal h _
    · rw [exec_of_fault hi (fault_eq_one_of_ne s hf)] at he
      cases he
      exact refuse_legal h

theorem runWord_legal {s t : State} {w : CommandWord} (h : s.Legal) (hr : runWord w s = .next t) : t.Legal := by
  rcases runWord_next hr with ⟨i, hi⟩ | rfl
  · exact exec_legal h hi
  · exact raiseFault_legal h _

/-- Settles O14: a step is an idle step, a reset or a command word, and a command ends in one of the ways of `Ends`,
each of which keeps the registers within their legal values (R24, R28, R31). -/
theorem stepKeepsLegalStates : Obligations.StepKeepsLegalStates := by
  intro s t hs h
  have htaken : ∀ rest, ({ s with pending := rest } : State).Legal := fun _ => hs.of_same rfl rfl rfl rfl rfl rfl
  rcases step_cases s with ⟨-, hidle⟩ | ⟨rest, -, hreset⟩ | ⟨w, rest, -, hword⟩
  · cases hidle.symm.trans h; exact hs
  · cases hreset.symm.trans h; exact applyReset_legal (htaken rest).cfg_legal
  · exact runWord_legal (htaken rest) (hword.symm.trans h)

/-- Settles O15: identifier 0 names a record in every legal configuration, and T0 is one. -/
theorem resetStateIsLegal : Obligations.ResetStateIsLegal :=
  ⟨fun _ hc => resetWith_legal hc, resetWith_legal Tests.t0_legal⟩

end Sys2Proof.Machine

/-! ## SEX (10_state.md R27) -/

namespace Sys2Proof.Machine

/-- Steps 1 to 3 of R170: grow in order, set the level, derive and answer. -/
theorem levelUp_eq_growAll (s : State) :
    levelUp s = attrOrder.foldlM (growOne (s.level.toNat + 1)) s >>= fun grown =>
      (derive { grown with level := BitVec.ofNat 7 (s.level.toNat + 1) }).map
        (·.respond (BitVec.ofNat 32 (s.level.toNat + 1))) := rfl

/-- `s` with another `SEX`. -/
def State.withSex (s : State) (x : BitVec 1) : State := { s with sex := x }

section
variable (s : State) (x : BitVec 1)

theorem setAttr_withSex (a : Attr) (v : Fix88) : (s.withSex x).setAttr a v = (s.setAttr a v).withSex x := by
  cases a <;> rfl

theorem attr_withSex (a : Attr) : (s.withSex x).attr a = s.attr a := by cases a <;> rfl

theorem raiseFault_withSex (c : Cause) : (s.withSex x).raiseFault c = (s.raiseFault c).withSex x := by
  by_cases hf : s.fault = 0#1
  · rw [raiseFault_of_good s c hf, raiseFault_of_good (s.withSex x) c hf]; rfl
  · have hf := fault_eq_one_of_ne s hf
    rw [raiseFault_of_fault s c hf, raiseFault_of_fault (s.withSex x) c hf]; rfl

/-- A `CH_WR` of `SEX` overwrites the other value; one of any other register leaves it. -/
theorem writeReg_withSex (r : CReg) (v : BitVec 16) :
    ∃ y, (s.withSex x).writeReg r v = (s.writeReg r v).map (·.withSex y) := by
  cases r with
  | level | pers | job => exact ⟨x, by dsimp only [State.writeReg, State.withSex]; split <;> rfl⟩
  | sex => exact ⟨v.setWidth 1, by dsimp only [State.writeReg]; split <;> rfl⟩
  | maxhp | maxmp => exact ⟨x, rfl⟩
  | attr a => exact ⟨x, congrArg Except.ok (setAttr_withSex s x a v)⟩

theorem readReg_withSex {r : CReg} (hr : r ≠ .sex) : (s.withSex x).readReg r = s.readReg r := by
  cases r with
  | sex => exact absurd rfl hr
  | attr a => exact congrArg (BitVec.setWidth 32) (attr_withSex s x a)
  | level | maxhp | maxmp | pers | job => rfl

/-- Register 3 is the only field value that names `SEX` (R23). -/
theorem regOfField_sex {b : Byte} (h : regOfField b = some .sex) : b = 3#8 := by
  unfold regOfField at h
  split at h
  case h_4 hb => exact BitVec.eq_of_toNat_eq hb
  all_goals cases h

theorem growOne_withSex (L : Nat) (a : Attr) :
    growOne L (s.withSex x) a = (growOne L s a).map (·.withSex x) := by
  simp only [growOne, attr_withSex, setAttr_withSex]
  dsimp only [State.withSex]
  cases rangeAttr s.cfg s.job.toNat L a with
  | error e => rfl
  | ok rg =>
    simp only [bind, Except.bind]
    cases attrInc s.cfg s.job.toNat s.pers.toNat L a (s.attr a) rg.upper s.rng <;> rfl

theorem growAll_withSex (L : Nat) (as : List Attr) :
    as.foldlM (growOne L) (s.withSex x) = (as.foldlM (growOne L) s).map (·.withSex x) := by
  induction as generalizing s with
  | nil => rfl
  | cons a as ih =>
    rw [List.foldlM_cons, List.foldlM_cons, growOne_withSex]
    cases growOne L s a with
    | error e => rfl
    | ok s' => exact ih s'

theorem derive_withSex : derive (s.withSex x) = (derive s).map (·.withSex x) := by
  dsimp only [derive, State.withSex]
  cases phys s.cfg s.job.toNat with
  | error e => rfl
  | ok ph =>
    simp only [bind, Except.bind]
    split <;> rfl

theorem levelUp_withSex : levelUp (s.withSex x) = (levelUp s).map (·.withSex x) := by
  rw [levelUp_eq_growAll, levelUp_eq_growAll, show (s.withSex x).level = s.level from rfl, growAll_withSex]
  cases attrOrder.foldlM (growOne (s.level.toNat + 1)) s with
  | error e => rfl
  | ok grown =>
    show (derive (State.withSex { grown with level := BitVec.ofNat 7 (s.level.toNat + 1) } x)).map _ = _
    rw [derive_withSex]
    dsimp only [bind, Except.bind]
    cases derive { grown with level := BitVec.ofNat 7 (s.level.toNat + 1) } <;> rfl
end

/-- Two outcomes are alike but for `SEX`: where the first is a next state, so is the second, with another `SEX` at
most. -/
def AlikeButSex (o o' : Host.Outcome State Fault Refusal) : Prop :=
  ∀ t, o = .next t → ∃ y, o' = .next (t.withSex y)

theorem alike_next (t : State) (y : BitVec 1) : AlikeButSex (.next t) (.next (t.withSex y)) := by
  rintro _ ⟨⟩
  exact ⟨y, rfl⟩

section
variable {s : State} {x : BitVec 1}

theorem alike_raiseFault (c : Cause) : AlikeButSex (.next (s.raiseFault c)) (.next ((s.withSex x).raiseFault c)) :=
  raiseFault_withSex s x c ▸ alike_next _ x

theorem alike_whenRunning {k k' : Host.Outcome State Fault Refusal} (h : AlikeButSex k k') :
    AlikeButSex (whenRunning s k) (whenRunning (s.withSex x) k') := by
  by_cases hf : s.fault = 0#1
  · rwa [whenRunning_of_good hf, whenRunning_of_good (s := s.withSex x) hf]
  · have hf := fault_eq_one_of_ne s hf
    rw [whenRunning_of_fault hf, whenRunning_of_fault (s := s.withSex x) hf]
    exact alike_next s.refuse x

theorem alike_complete (r : Except Abandon State) (y : BitVec 1) :
    AlikeButSex (complete s r) (complete (s.withSex x) (r.map (·.withSex y))) := by
  rcases r with (c | _) | t
  · exact alike_raiseFault c
  · rintro _ ⟨⟩
  · exact alike_next t y

theorem alike_randM (o m : Byte) : AlikeButSex (exec (.randM o m) s) (exec (.randM o m) (s.withSex x)) := by
  refine alike_whenRunning ?_
  dsimp only [State.withSex]
  cases randMsum o m s.rng with
  | ok d => exact alike_next _ x
  | error c => exact alike_raiseFault c

theorem alike_chWr (reg : Byte) (v : BitVec 16) :
    AlikeButSex (exec (.chWr reg v) s) (exec (.chWr reg v) (s.withSex x)) := by
  refine alike_whenRunning ?_
  cases regOfField reg with
  | none => exact alike_raiseFault .illegal
  | some r =>
    obtain ⟨y, hy⟩ := writeReg_withSex s x r v
    simp only [hy]
    cases s.writeReg r v with
    | ok s' => exact alike_next _ y
    | error c => exact alike_raiseFault c

theorem alike_chRd {reg : Byte} (hreg : reg ≠ 3#8) :
    AlikeButSex (exec (.chRd reg) s) (exec (.chRd reg) (s.withSex x)) := by
  refine alike_whenRunning ?_
  cases hr : regOfField reg with
  | none => exact alike_raiseFault .illegal
  | some r =>
    have hsex : r ≠ .sex := fun h => hreg (regOfField_sex (h ▸ hr))
    simp only [readReg_withSex s x hsex]
    exact alike_next _ x

theorem alike_lvlup : AlikeButSex (exec .lvlup s) (exec .lvlup (s.withSex x)) := by
  refine alike_whenRunning ?_
  rw [show (s.withSex x).level = s.level from rfl]
  split
  · exact alike_raiseFault .level
  · rw [levelUp_withSex, show (s.withSex x).leaveUnsaid = s.leaveUnsaid.withSex s.leaveUnsaid.sex from rfl]
    exact alike_complete _ x

theorem alike_jobchg (j : Byte) : AlikeButSex (exec (.jobchg j) s) (exec (.jobchg j) (s.withSex x)) := by
  refine alike_whenRunning ?_
  rw [show (s.withSex x).cfg = s.cfg from rfl]
  split
  · exact alike_raiseFault .table
  · exact alike_next _ x

theorem alike_perschg (p : Byte) : AlikeButSex (exec (.perschg p) s) (exec (.perschg p) (s.withSex x)) := by
  refine alike_whenRunning ?_
  rw [show (s.withSex x).cfg = s.cfg from rfl]
  split
  · exact alike_raiseFault .table
  · exact alike_next _ x

theorem alike_range (l b : Byte) : AlikeButSex (exec (.range l b) s) (exec (.range l b) (s.withSex x)) := by
  refine alike_whenRunning ?_
  cases attrOfField b with
  | none => exact alike_raiseFault .illegal
  | some a =>
    dsimp only
    split
    · exact alike_raiseFault .level
    · dsimp only [State.withSex]
      cases rangeAttr s.cfg s.job.toNat l.toNat a with
      | ok r => exact alike_next _ x
      | error e => exact alike_complete (.error e) x

/-- Every command but `CH_RD` of `SEX` does the same to a state with another `SEX`. -/
theorem exec_alike {i : Instr} (hi : ∀ reg, i = .chRd reg → reg ≠ 3#8) :
    AlikeButSex (exec i s) (exec i (s.withSex x)) := by
  cases i
  case status => exact alike_next _ x
  case rngSeed | rngRead | randU | randS => exact alike_whenRunning (alike_next _ x)
  case fxAdd | fxSub | fxMul | fxHalf | fxW44 | fxW17 | fxTrunc | fxFromint | fxGinc =>
    exact alike_whenRunning (alike_next _ x)
  case randM o m => exact alike_randM o m
  case chWr reg v => exact alike_chWr reg v
  case chRd reg => exact alike_chRd (hi reg rfl)
  case lvlup => exact alike_lvlup
  case jobchg j => exact alike_jobchg j
  case perschg p => exact alike_perschg p
  case range l b => exact alike_range l b

end

/-- Settles O19: no command but `CH_RD` of `SEX` reads it, so the next states differ at most in it; they are equal where
a `CH_WR` of `SEX` or the free values after a late TABLE fault overwrite it. -/
theorem sexHasNoEffect : Obligations.SexHasNoEffect := by
  intro i s t x hi h
  obtain ⟨y, hy⟩ := exec_alike (x := x) hi t h
  exact ⟨t.withSex y, hy, rfl, rfl⟩

end Sys2Proof.Machine

/-! ## The writers of each register (10_state.md R20, R23) -/

namespace Sys2Proof.Machine

/-- What a level-up leaves alone, in any state: `SEX`, `PERS`, `JOB`, `CAUSE` and what lies outside the registers. -/
structure State.SameBesideGrowth (s t : State) : Prop where
  sex : t.sex = s.sex
  pers : t.pers = s.pers
  job : t.job = s.job
  cause : t.cause = s.cause
  outside : s.SameOutside t

section
variable {s t : State}

theorem State.SameBesideGrowth.refl (s : State) : s.SameBesideGrowth s := ⟨rfl, rfl, rfl, rfl, rfl, rfl, rfl⟩

theorem State.SameBesideGrowth.trans {u : State} (h : s.SameBesideGrowth t) (h' : t.SameBesideGrowth u) :
    s.SameBesideGrowth u := by
  obtain ⟨hcfg, hpending, hunsaid⟩ := h.outside
  obtain ⟨hcfg', hpending', hunsaid'⟩ := h'.outside
  exact
    ⟨h'.sex.trans h.sex, h'.pers.trans h.pers, h'.job.trans h.job, h'.cause.trans h.cause, hcfg'.trans hcfg,
      hpending'.trans hpending, hunsaid'.trans hunsaid⟩

theorem growOne_frame {L : Nat} {a : Attr} (h : growOne L s a = .ok t) : s.SameBesideGrowth t := by
  obtain ⟨rg, -, h⟩ := bind_eq_ok h
  obtain ⟨d, -, h⟩ := bind_eq_ok h
  cases h
  exact ⟨by simp, by simp, by simp, by simp, by simp, by simp, by simp⟩

theorem growAll_frame {L : Nat} (as : List Attr) {s : State} (h : as.foldlM (growOne L) s = .ok t) :
    s.SameBesideGrowth t := by
  induction as generalizing s with
  | nil => cases h; exact .refl _
  | cons a as ih =>
    rw [List.foldlM_cons] at h
    obtain ⟨s', hs', h⟩ := bind_eq_ok h
    exact (growOne_frame hs').trans (ih h)

theorem derive_frame (h : derive s = .ok t) : s.SameBesideGrowth t := by
  obtain ⟨ph, -, h⟩ := bind_eq_ok h
  cases h
  dsimp only
  split <;> exact ⟨rfl, rfl, rfl, rfl, rfl, rfl, rfl⟩

theorem levelUp_frame (h : levelUp s = .ok t) : s.SameBesideGrowth t := by
  obtain ⟨grown, hgrown, h⟩ := bind_eq_ok h
  obtain ⟨derived, hderived, h⟩ := bind_eq_ok h
  cases h
  have hlevel : grown.SameBesideGrowth { grown with level := BitVec.ofNat 7 (s.level.toNat + 1) } :=
    ⟨rfl, rfl, rfl, rfl, rfl, rfl, rfl⟩
  have hresp : derived.SameBesideGrowth (derived.respond (BitVec.ofNat 32 (s.level.toNat + 1))) :=
    ⟨rfl, rfl, rfl, rfl, rfl, rfl, rfl⟩
  exact (growAll_frame _ hgrown).trans (hlevel.trans ((derive_frame hderived).trans hresp))

end

theorem not_good_raiseFault (s : State) (c : Cause) : ¬ (s.raiseFault c).Good := by
  rw [State.Good, raiseFault_fault]
  decide

/-- Settles O18: each constructor of `Ends` writes the registers its command is listed for, and a command that ends good
has raised nothing. -/
theorem onlyListedCommandsWriteRegisters : Obligations.OnlyListedCommandsWriteRegisters := by
  intro i s t hg h ht
  cases exec_ends hg h with
  | answers d =>
    exact
      ⟨fun _ _ _ _ _ => rfl, fun _ _ _ => ⟨rfl, rfl, rfl, respond_attr s d⟩, fun _ => rfl, fun _ _ => rfl,
        fun _ _ => rfl, rfl, rfl, rfl, rfl⟩
  | raises c => exact absurd ht (not_good_raiseFault s c)
  | seeds v =>
    exact
      ⟨fun hseed => absurd rfl (hseed v), fun _ _ _ => ⟨rfl, rfl, rfl, respond_attr _ _⟩, fun _ => rfl,
        fun _ _ => rfl, fun _ _ => rfl, rfl, rfl, rfl, rfl⟩
  | draws r d hi =>
    have hdraw : i ≠ .randU → (∀ u, i ≠ .randS u) → (∀ o m, i ≠ .randM o m) → False := by
      rintro hu hs hm
      rcases hi with rfl | ⟨u, rfl⟩ | ⟨o, m, rfl⟩
      · exact hu rfl
      · exact hs u rfl
      · exact hm o m rfl
    exact
      ⟨fun _ hu hs hm _ => (hdraw hu hs hm).elim, fun _ _ _ => ⟨rfl, rfl, rfl, respond_attr _ d⟩, fun _ => rfl,
        fun _ _ => rfl, fun _ _ => rfl, rfl, rfl, rfl, rfl⟩
  | writes hw =>
    obtain ⟨hrng, -, hcause, -, hcfg, hpending, hunsaid⟩ := writeReg_frame hw
    exact
      ⟨fun _ _ _ _ _ => hrng, fun hwr => absurd rfl (hwr _ _), fun hwr => absurd rfl (hwr _ _),
        fun hwr => absurd rfl (hwr _ _), fun hwr => absurd rfl (hwr _ _), hcause, hcfg, hpending, hunsaid⟩
  | levelsUp hl hu =>
    obtain ⟨hsex, hpers, hjob, hcause, hout⟩ := levelUp_frame hu
    exact
      ⟨fun _ _ _ _ hne => absurd rfl hne, fun _ hne => absurd rfl hne, fun _ => hsex, fun _ _ => hpers,
        fun _ _ => hjob, hcause, hout⟩
  | leavesUnsaid c => exact absurd ht (not_good_raiseFault _ c)
  | changesJob hj =>
    exact
      ⟨fun _ _ _ _ _ => rfl, fun _ _ hne => absurd rfl (hne _), fun _ => rfl, fun _ _ => rfl,
        fun _ hne => absurd rfl (hne _), rfl, rfl, rfl, rfl⟩
  | changesPers hp =>
    exact
      ⟨fun _ _ _ _ _ => rfl, fun _ _ _ => ⟨rfl, rfl, rfl, respond_attr _ _⟩, fun _ => rfl,
        fun _ hne => absurd rfl (hne _), fun _ _ => rfl, rfl, rfl, rfl, rfl⟩

end Sys2Proof.Machine

/-! ## The words of the RNG commands (30_encoding.md R84) -/

namespace Sys2Proof

/-- A word whose opcode has row `r` and whose reserved bits are zero decodes to the command its fields make. -/
theorem decode_of_row {op : Byte} {r : Row} (hr : rowOf op = some r) {arg : Word}
    (harg : arg &&& r.format.reservedMask = 0#32) : decode (op ++ arg) = .ok (r.build arg) := by
  obtain ⟨hmem, rfl⟩ := mem_of_rowOf hr
  rw [decode_row hmem, if_neg (not_not.mpr harg)]

@[simp] theorem fieldA_argB (a : Byte) : fieldA (argB a) = a :=
  BitVec.eq_of_toNat_eq (by rw [fieldA_toNat, argB_toNat]; exact Nat.mod_eq_of_lt a.isLt)

@[simp] theorem fieldA_argBB (a b : Byte) : fieldA (argBB a b) = a :=
  BitVec.eq_of_toNat_eq (by have := a.isLt; rw [fieldA_toNat, argBB_toNat]; omega)

@[simp] theorem fieldB_argBB (a b : Byte) : fieldB (argBB a b) = b :=
  BitVec.eq_of_toNat_eq (by have := a.isLt; have := b.isLt; rw [fieldB_toNat, argBB_toNat]; omega)

theorem decode_encode_rngRead : decode (encode .rngRead) = .ok .rngRead := rfl

theorem decode_encode_randU : decode (encode .randU) = .ok .randU := rfl

theorem decode_encode_randS (u : Byte) : decode (encode (.randS u)) = .ok (.randS u) :=
  (decode_of_row rfl ((and_B _).mpr (argB_toNat u ▸ u.isLt))).trans (by simp only [fieldA_argB])

theorem decode_encode_randM (o m : Byte) : decode (encode (.randM o m)) = .ok (.randM o m) := by
  have hlt : (argBB o m).toNat < 2 ^ 16 := by
    have := o.isLt
    have := m.isLt
    rw [argBB_toNat]
    omega
  exact (decode_of_row rfl ((and_BB _).mpr hlt)).trans (by simp only [fieldA_argBB, fieldB_argBB])

end Sys2Proof

/-! ## Two blocks with one stream (10_state.md R21) -/

namespace Sys2Proof.Machine

/-- The commands that read the generator or draw from it. -/
def ReadsStream (i : Instr) : Prop :=
  i = .rngRead ∨ i = .randU ∨ (∃ u, i = .randS u) ∨ ∃ o m, i = .randM o m

theorem decode_encode_of_readsStream {i : Instr} (hi : ReadsStream i) : decode (encode i) = .ok i := by
  rcases hi with rfl | rfl | ⟨u, rfl⟩ | ⟨o, m, rfl⟩
  · exact decode_encode_rngRead
  · exact decode_encode_randU
  · exact decode_encode_randS u
  · exact decode_encode_randM o m

/-- Two blocks that stream commands cannot tell apart: the same generator, both good or both stopped by one cause. -/
structure SameStream (s t : State) : Prop where
  rng : t.rng = s.rng
  fault : t.fault = s.fault
  cause : s.fault = 1#1 → t.cause = s.cause

section
variable {s t : State} (h : SameStream s t)
include h

theorem SameStream.respond (r d : Word) :
    SameStream ({ s with rng := r }.respond d) ({ t with rng := r }.respond d) :=
  ⟨rfl, h.fault, h.cause⟩

/-- A stream command answers two blocks with one stream alike, and leaves them so. -/
theorem exec_sameStream {i : Instr} (hi : ReadsStream i) :
    ∃ s' t', exec i s = .next s' ∧ exec i t = .next t' ∧ t'.resp = s'.resp ∧ SameStream s' t' := by
  by_cases hf : s.fault = 0#1
  · have hf' : t.fault = 0#1 := h.fault.trans hf
    rcases hi with rfl | rfl | ⟨u, rfl⟩ | ⟨o, m, rfl⟩
    · refine ⟨_, _, exec_rngRead hf, exec_rngRead hf', ?_, h.rng, h.fault, h.cause⟩
      simp only [respond_resp, h.rng]
    · refine ⟨_, _, exec_randU hf, exec_randU hf', ?_, ?_⟩ <;> rw [h.rng]
      · rfl
      · exact h.respond _ _
    · refine ⟨_, _, exec_randS hf u, exec_randS hf' u, ?_, ?_⟩ <;> rw [h.rng]
      · rfl
      · exact h.respond _ _
    · cases hm : maskOk m with
      | true =>
        refine ⟨_, _, exec_randM_ok hf o hm, exec_randM_ok hf' o hm, ?_, ?_⟩ <;> rw [h.rng]
        · rfl
        · exact h.respond _ _
      | false => exact ⟨_, _, exec_randM_bad hf o hm, exec_randM_bad hf' o hm, rfl, h.rng, rfl, fun _ => rfl⟩
  · have hf := fault_eq_one_of_ne s hf
    have hi : i ≠ .status := by rcases hi with rfl | rfl | ⟨u, rfl⟩ | ⟨o, m, rfl⟩ <;> nofun
    refine ⟨_, _, exec_of_fault hi hf, exec_of_fault hi (h.fault.trans hf), ?_, h.rng, h.fault, h.cause⟩
    simp only [refuse_resp, h.cause hf]

end

theorem responses_cons {i : Instr} {s s' : State} (hd : decode (encode i) = .ok i) (he : exec i s = .next s')
    (ws : List CommandWord) : responses (encode i :: ws) s = s'.resp :: responses ws s' := by
  simp only [responses, step_present, runWord_of_ok hd, he]

theorem responses_sameStream (is : List Instr) {s t : State} (h : SameStream s t) (his : ∀ i ∈ is, ReadsStream i) :
    responses (is.map encode) s = responses (is.map encode) t := by
  induction is generalizing s t with
  | nil => rfl
  | cons i is ih =>
    obtain ⟨hi, his⟩ := List.forall_mem_cons.mp his
    obtain ⟨s', t', hs, ht, hresp, h'⟩ := exec_sameStream h hi
    have hd := decode_encode_of_readsStream hi
    rw [List.map_cons, responses_cons hd hs, responses_cons hd ht, hresp, ih h' his]

/-- Settles O36: the word `RNG_READ` answers is the whole generator, so after `RNG_SEED` the two blocks have one stream,
and every stream command answers them alike and keeps it so. -/
theorem cloneReplaysTheStream : Obligations.CloneReplaysTheStream := by
  intro s t t' d is hs ht hread hseed his
  have hd : d = s.rng := by
    have := hread.symm.trans (exec_rngRead hs)
    simpa [State.afterOk, State.respond] using this
  rw [exec_rngSeed ht] at hseed
  cases hseed
  exact responses_sameStream is ⟨hd, ht.trans hs.symm, fun hf => absurd (hs.symm.trans hf) (by decide)⟩ his

end Sys2Proof.Machine

/-! ## The ROMs and the rest of the configuration (20_memory.md R50) -/

namespace Sys2Proof.Machine

/-- Every way a command can end keeps the configuration: no command's update names it. -/
theorem ends_cfg {s t : State} {i : Instr} (he : Ends s i t) : t.cfg = s.cfg := by
  cases he with
  | answers | seeds | draws | changesJob | changesPers => rfl
  | raises c => exact raiseFault_cfg s c
  | writes hw =>
    obtain ⟨-, -, -, -, hcfg, -, -⟩ := writeReg_frame hw
    exact hcfg
  | levelsUp _ hu =>
    obtain ⟨hcfg, -, -⟩ := (levelUp_frame hu).outside
    exact hcfg
  | leavesUnsaid c => exact raiseFault_cfg s.leaveUnsaid c

theorem exec_cfg {s t : State} {i : Instr} (he : exec i s = .next t) : t.cfg = s.cfg := by
  by_cases hf : s.fault = 0#1
  · exact ends_cfg (exec_ends hf he)
  · by_cases hi : i = .status
    · subst hi
      cases he
      rfl
    · rw [exec_of_fault hi (fault_eq_one_of_ne s hf)] at he
      cases he
      rfl

theorem runWord_cfg {s t : State} {w : CommandWord} (hr : runWord w s = .next t) : t.cfg = s.cfg := by
  rcases runWord_next hr with ⟨i, hi⟩ | rfl
  · exact exec_cfg hi
  · exact raiseFault_cfg s _

/-- Settles O17: a step is an idle step, a reset or a command word; reset carries the configuration over (R240), and
every command word keeps it. -/
theorem tablesNeverChange : Obligations.TablesNeverChange := by
  intro s t h
  rcases step_cases s with ⟨-, hidle⟩ | ⟨rest, -, hreset⟩ | ⟨w, rest, -, hword⟩
  · cases hidle.symm.trans h; rfl
  · cases hreset.symm.trans h; rfl
  · exact (runWord_cfg (hword.symm.trans h)).trans rfl

end Sys2Proof.Machine

/-! ## The band scan of `increment` (20_memory.md R56) -/

namespace Sys2Proof.Machine

section
variable {c : Cfg} {j l : Nat} {a : Attr} (hj : j < c.njobs)
include hj

/-- What `increment` can answer: the increment of the first slot that reaches the level, no bound up to it being zero,
or `TABLE` where no slot before the first zero bound reaches it. -/
theorem increment_cases :
    (∃ k < 8, (∀ k' ≤ k, c.bound j a k' ≠ 0) ∧ (∀ k' < k, c.bound j a k' < l) ∧ l ≤ c.bound j a k ∧
      increment c j l a = .ok (c.inc j a k)) ∨
    (increment c j l a = .error (.raised .table) ∧
      ∀ k < 8, (∀ k' ≤ k, c.bound j a k' ≠ 0) → c.bound j a k < l) := by
  rw [increment_eq_scan]
  rcases scanBands_spec c hj l a 0 8 rfl with ⟨k, -, hk, hbefore, hne, hreach, hok⟩ | ⟨htable, hnone⟩
  · refine .inl ⟨k, hk, fun k' hk' => ?_, fun k' hk' => (hbefore k' k'.zero_le hk').2, hreach, hok⟩
    rcases Nat.lt_or_eq_of_le hk' with hlt | rfl
    · exact (hbefore k' k'.zero_le hlt).1
    · exact hne
  · exact .inr ⟨htable, fun k hk hne => hnone k k.zero_le hk fun k' _ => hne k'⟩

/-- The slot named is the scan's own: two slots that both reach the level first are one. -/
theorem increment_of_first_reaching {k : Nat} (hk : k < 8) (hne : ∀ k' ≤ k, c.bound j a k' ≠ 0)
    (hbelow : ∀ k' < k, c.bound j a k' < l) (hreach : l ≤ c.bound j a k) :
    increment c j l a = .ok (c.inc j a k) := by
  rcases increment_cases (l := l) (a := a) hj with ⟨k₀, -, -, hbelow₀, hreach₀, hok⟩ | ⟨-, hnone⟩
  · rcases Nat.lt_trichotomy k k₀ with hlt | rfl | hlt
    · exact absurd hreach (Nat.not_le.mpr (hbelow₀ k hlt))
    · exact hok
    · exact absurd hreach₀ (Nat.not_le.mpr (hbelow k₀ hlt))
  · exact absurd hreach (Nat.not_le.mpr (hnone k hk hne))

theorem increment_of_none_reaching (hnone : ∀ k < 8, (∀ k' ≤ k, c.bound j a k' ≠ 0) → c.bound j a k < l) :
    increment c j l a = .error (.raised .table) := by
  rcases increment_cases (l := l) (a := a) hj with ⟨k, hk, hne, -, hreach, -⟩ | ⟨htable, -⟩
  · exact absurd hreach (Nat.not_le.mpr (hnone k hk hne))
  · exact htable

theorem increment_of_covers (hc : c.Covers j) (h2 : 2 ≤ l) (h99 : l ≤ 99) :
    ∃ k < 8, l ≤ c.bound j a k ∧ (∀ k' < k, c.bound j a k' < l) ∧ increment c j l a = .ok (c.inc j a k) := by
  obtain ⟨g, hg⟩ := increment_ok_of_covers c hj hc h2 h99 a
  rcases increment_cases (l := l) (a := a) hj with ⟨k, hk, -, hbelow, hreach, hok⟩ | ⟨htable, -⟩
  · exact ⟨k, hk, hreach, hbelow, hok⟩
  · cases hg.symm.trans htable

end

/-- Settles O45: the scan answers the first reaching slot or `TABLE`, and the first reaching slot is unique. -/
theorem incrementIsTheFirstReachingBand : Obligations.IncrementIsTheFirstReachingBand := by
  intro c j l a hj h2 h99
  exact
    ⟨fun k hk hne hbelow hreach => increment_of_first_reaching hj hk hne hbelow hreach,
      increment_of_none_reaching hj, fun hc => increment_of_covers hj hc h2 h99⟩

end Sys2Proof.Machine

/-! ## What a step does with each input (20_memory.md R66, 30_encoding.md R84, 70_reset_and_hazards.md R240) -/

namespace Sys2Proof.Machine

section
variable {s : State} {rest : List Input}

theorem step_of_command {w : CommandWord} (h : s.pending = .command w :: rest) :
    step s = runWord w { s with pending := rest } := by
  simp only [step, runNext, takeInput_cons h]

theorem step_of_reset (h : s.pending = .reset :: rest) :
    step s = .next { s with pending := rest }.applyReset := by
  simp only [step, runNext, takeInput_cons h]

theorem step_of_nothing (h : s.pending = []) : step s = .next s := by
  simp only [step, runNext, takeInput_nil h]

end

/-- Settles O11: one clause for each input a step can take, a command word's two by what it decodes to. -/
theorem stepRunsTheDecodedCommand : Obligations.StepRunsTheDecodedCommand := by
  intro s
  refine ⟨fun w rest i hw hd => ?_, fun w rest e hw hd hgood => ?_, fun rest => step_of_reset, step_of_nothing⟩
  · rw [step_of_command hw, runWord_of_ok hd]
  · rw [step_of_command hw, runWord_of_error hd]
    exact illegalCommand_of_good hgood

end Sys2Proof.Machine

/-! ## The bytes of a record (20_memory.md R52, R55, R57, R58) -/

namespace Sys2Proof.Machine

/-- The initial value of either sex (R55). -/
theorem initialAttr_eq_read (c : Cfg) {j sex : Nat} (hj : j < c.njobs) (a : Attr) (hsex : sex ≤ 1) :
    initialAttr c j a sex = .ok (c.jobrom.read (128 * j + 2 * attrIndex a + sex)) := by
  have ha := attrIndex_lt a
  exact memRead_of_lt c .jobrom _ (by simp only [spaceSize, Config.jobRecordBytes]; omega)

/-- `PHYS` is the low bit of FLAGS (R52). -/
theorem physBit_toNat (c : Cfg) (j : Nat) : (c.physBit j).toNat = (c.jobrom.read (128 * j + 10)).toNat % 2 := by
  rw [Cfg.physBit, BitVec.extractLsb'_toNat, Nat.shiftRight_zero, Nat.pow_one]

/-- Settles O44: the record's byte for each query; `PHYS` is the low bit of its byte. -/
theorem queriesReadTheirBytes : Obligations.QueriesReadTheirBytes := by
  intro c j p a hj hp
  exact
    ⟨fun _ hsex => initialAttr_eq_read c hj a hsex, growthFactor_eq c hp a, c.physBit j, phys_eq c hj,
      physBit_toNat c j⟩

end Sys2Proof.Machine

/-! ## Encoding and decoding are inverse (30_encoding.md R80, R81, R84, R85) -/

namespace Sys2Proof

@[simp] theorem fieldA_argBBB (a b c : Byte) : fieldA (argBBB a b c) = a :=
  BitVec.eq_of_toNat_eq (by have := a.isLt; rw [fieldA_toNat, argBBB_toNat]; omega)

@[simp] theorem fieldB_argBBB (a b c : Byte) : fieldB (argBBB a b c) = b :=
  BitVec.eq_of_toNat_eq (by have := a.isLt; have := b.isLt; rw [fieldB_toNat, argBBB_toNat]; omega)

@[simp] theorem fieldC_argBBB (a b c : Byte) : fieldC (argBBB a b c) = c :=
  BitVec.eq_of_toNat_eq (by
    have := a.isLt; have := b.isLt; have := c.isLt; rw [fieldC_toNat, argBBB_toNat]; omega)

@[simp] theorem fieldX_argH (x : BitVec 16) : fieldX (argH x) = x :=
  BitVec.eq_of_toNat_eq (by rw [fieldX_toNat, argH_toNat]; exact Nat.mod_eq_of_lt x.isLt)

@[simp] theorem fieldX_argHH (x y : BitVec 16) : fieldX (argHH x y) = x :=
  BitVec.eq_of_toNat_eq (by have := x.isLt; rw [fieldX_toNat, argHH_toNat]; omega)

@[simp] theorem fieldY_argHH (x y : BitVec 16) : fieldY (argHH x y) = y :=
  BitVec.eq_of_toNat_eq (by have := x.isLt; have := y.isLt; rw [fieldY_toNat, argHH_toNat]; omega)

@[simp] theorem fieldReg_argRV (reg : Byte) (val : BitVec 16) : fieldReg (argRV reg val) = reg :=
  BitVec.eq_of_toNat_eq (by have := reg.isLt; have := val.isLt; rw [fieldReg_toNat, argRV_toNat]; omega)

@[simp] theorem fieldVal_argRV (reg : Byte) (val : BitVec 16) : fieldVal (argRV reg val) = val :=
  BitVec.eq_of_toNat_eq (by have := val.isLt; rw [fieldVal_toNat, argRV_toNat]; omega)

open Laws.TableRow in
/-- A command's word lies in the command's row, has no reserved bit, and holds the operands in their fields. -/
theorem decode_encode (i : Instr) : decode (encode i) = .ok i := by
  cases i with
  | status | rngRead | randU | lvlup => rfl
  | rngSeed v => exact (decode_of_row rfl BitVec.and_zero).trans rfl
  | randS a | fxW44 a | fxW17 a | fxFromint a | jobchg a | perschg a =>
    exact (decode_of_row rfl (argB_reserved a)).trans (by simp only [fieldA_argB])
  | randM a b | range a b =>
    exact (decode_of_row rfl (argBB_reserved a b)).trans (by simp only [fieldA_argBB, fieldB_argBB])
  | fxGinc a b c =>
    exact (decode_of_row rfl (argBBB_reserved a b c)).trans
      (by simp only [fieldA_argBBB, fieldB_argBBB, fieldC_argBBB])
  | fxHalf x | fxTrunc x => exact (decode_of_row rfl (argH_reserved x)).trans (by simp only [fieldX_argH])
  | fxAdd x y | fxSub x y | fxMul x y =>
    exact (decode_of_row rfl BitVec.and_zero).trans (by simp only [fieldX_argHH, fieldY_argHH])
  | chRd reg => exact (decode_of_row rfl (argR_reserved reg)).trans (by simp only [fieldReg_argRV])
  | chWr reg val =>
    exact (decode_of_row rfl (argRV_reserved reg val)).trans (by simp only [fieldReg_argRV, fieldVal_argRV])

/-- Settles O1: by the format of the command's row. -/
theorem decodeOfEncodeIsTheCommand : Obligations.DecodeOfEncodeIsTheCommand := decode_encode

/-- The argument word that holds the fields of `arg` and zero reserved bits. -/
def Format.repack : Format → Word → Word
  | .N, _ => 0#32
  | .W, arg => arg
  | .B, arg => argB (fieldA arg)
  | .BB, arg => argBB (fieldA arg) (fieldB arg)
  | .BBB, arg => argBBB (fieldA arg) (fieldB arg) (fieldC arg)
  | .H, arg => argH (fieldX arg)
  | .HH, arg => argHH (fieldX arg) (fieldY arg)
  | .R, arg => argRV (fieldReg arg) 0#16
  | .RV, arg => argRV (fieldReg arg) (fieldVal arg)

/-- Fields and reserved bits are all of an argument: with no reserved bit it is its fields repacked (R81). -/
theorem Format.repack_eq {f : Format} {arg : Word} (h : arg &&& f.reservedMask = 0#32) : f.repack arg = arg := by
  have hlt := arg.isLt
  apply BitVec.eq_of_toNat_eq
  cases f with
  | N => exact congrArg BitVec.toNat (h.symm.trans (and_N arg))
  | W => rfl
  | B => have := (and_B arg).mp h; rw [Format.repack, argB_toNat, fieldA_toNat]; omega
  | BB => have := (and_BB arg).mp h; rw [Format.repack, argBB_toNat, fieldA_toNat, fieldB_toNat]; omega
  | BBB =>
    have := (and_BBB arg).mp h
    rw [Format.repack, argBBB_toNat, fieldA_toNat, fieldB_toNat, fieldC_toNat]; omega
  | H => have := (and_H arg).mp h; rw [Format.repack, argH_toNat, fieldX_toNat]; omega
  | HH => rw [Format.repack, argHH_toNat, fieldX_toNat, fieldY_toNat]; omega
  | R =>
    obtain ⟨hreg, hlow⟩ := (and_R arg).mp h
    rw [Format.repack, argRV_toNat, fieldReg_toNat, BitVec.toNat_ofNat]; omega
  | RV =>
    have := (and_RV arg).mp h
    rw [Format.repack, argRV_toNat, fieldReg_toNat, fieldVal_toNat]; omega

/-- The encoder writes the fields a row's command was built from back in the row's format. -/
theorem encode_build {r : Row} (hr : r ∈ opcodeMap) (arg : Word) :
    encode (r.build arg) = r.opcode ++ r.format.repack arg := by
  have hrows : ∀ r ∈ opcodeMap, encode (r.build arg) = r.opcode ++ r.format.repack arg := by
    simp only [opcodeMap, systemAndRngRows, fixedPointRows, growthRows, List.forall_mem_append, List.forall_mem_cons,
      List.not_mem_nil, false_implies, implies_true, and_true]
    and_intros <;> rfl
  exact hrows r hr

/-- Settles O2: the word of an accepted row is its opcode and its fields, repacked. -/
theorem encodeOfDecodeIsTheWord : Obligations.EncodeOfDecodeIsTheWord := by
  intro w i h
  obtain ⟨r, hr, hop, hres, rfl⟩ := decode_ok h
  rw [encode_build hr, Format.repack_eq hres, hop, opcodeOf_append_argOf]

end Sys2Proof

/-! ## The decoder against the rows of the opcode map (30_encoding.md R81, R84, R90, R91) -/

namespace Sys2Proof

/-- `(cmd & mask) == match` says that the opcode is the row's and no reserved bit is one (R84). -/
theorem and_mask_eq_matchWord_iff (w : CommandWord) (r : Row) :
    w &&& r.mask = r.matchWord ↔ r.opcode = opcodeOf w ∧ argOf w &&& r.format.reservedMask = 0#32 := by
  have hand : w &&& r.mask = opcodeOf w ++ (argOf w &&& r.format.reservedMask) := by
    conv_lhs => rw [← opcodeOf_append_argOf w]
    rw [Row.mask, BitVec.and_append, show (0xFF#8 : Byte) = BitVec.allOnes 8 from rfl, BitVec.and_allOnes]
  rw [hand, Row.matchWord]
  constructor
  · intro h
    have hop := congrArg opcodeOf h
    have harg := congrArg argOf h
    simp only [opcodeOf_append, argOf_append] at hop harg
    exact ⟨hop.symm, harg⟩
  · rintro ⟨hop, harg⟩
    rw [hop, harg]

theorem decode_of_match {w : CommandWord} {r : Row} (hr : r ∈ opcodeMap) (h : w &&& r.mask = r.matchWord) :
    decode w = .ok (r.build (argOf w)) := by
  obtain ⟨hop, harg⟩ := (and_mask_eq_matchWord_iff w r).mp h
  rw [← opcodeOf_append_argOf w, argOf_append]
  exact decode_of_row (hop ▸ rowOf_opcode hr) harg

theorem illegalWord_of_no_match {w : CommandWord} (h : ∀ r ∈ opcodeMap, w &&& r.mask ≠ r.matchWord) :
    Machine.IllegalWord w := by
  cases hd : decode w with
  | error e => exact Machine.illegalWord_of_error hd
  | ok i =>
    obtain ⟨r, hr, hop, harg, -⟩ := decode_ok hd
    exact absurd ((and_mask_eq_matchWord_iff w r).mpr ⟨hop, harg⟩) (h r hr)

/-- No opcode is listed twice, so no word matches two rows. -/
theorem row_eq_of_match {w : CommandWord} {r r' : Row} (hr : r ∈ opcodeMap) (hr' : r' ∈ opcodeMap)
    (h : w &&& r.mask = r.matchWord) (h' : w &&& r'.mask = r'.matchWord) : r = r' := by
  obtain ⟨hop, -⟩ := (and_mask_eq_matchWord_iff w r).mp h
  obtain ⟨hop', -⟩ := (and_mask_eq_matchWord_iff w r').mp h'
  have hrow := rowOf_opcode hr
  rw [hop, ← hop', rowOf_opcode hr'] at hrow
  exact (Option.some.inj hrow).symm

/-- Settles O3: a match is the decoder's two tests, and the row that passes them is the only one. -/
theorem decodeFollowsTheTableRows : Obligations.DecodeFollowsTheTableRows := fun _ =>
  ⟨fun _ => decode_of_match, illegalWord_of_no_match,
    fun _ hr _ hr' h h' => congrArg Row.mnemonic (row_eq_of_match hr hr' h h')⟩

/-! ### Fields as slices of the argument (R81, R82) -/

section
variable (arg : Word)

theorem fieldA_eq_ofNat : fieldA arg = BitVec.ofNat 8 arg.toNat :=
  BitVec.eq_of_toNat_eq (by rw [fieldA_toNat, BitVec.toNat_ofNat])

theorem fieldB_eq_ofNat : fieldB arg = BitVec.ofNat 8 (arg.toNat / 2 ^ 8) :=
  BitVec.eq_of_toNat_eq (by rw [fieldB_toNat, BitVec.toNat_ofNat])

theorem fieldC_eq_ofNat : fieldC arg = BitVec.ofNat 8 (arg.toNat / 2 ^ 16) :=
  BitVec.eq_of_toNat_eq (by rw [fieldC_toNat, BitVec.toNat_ofNat])

theorem fieldX_eq_ofNat : fieldX arg = BitVec.ofNat 16 arg.toNat :=
  BitVec.eq_of_toNat_eq (by rw [fieldX_toNat, BitVec.toNat_ofNat])

theorem fieldY_eq_ofNat : fieldY arg = BitVec.ofNat 16 (arg.toNat / 2 ^ 16) :=
  BitVec.eq_of_toNat_eq (by rw [fieldY_toNat, BitVec.toNat_ofNat])

theorem fieldReg_eq_ofNat : fieldReg arg = BitVec.ofNat 8 (arg.toNat / 2 ^ 16) := fieldC_eq_ofNat arg

theorem fieldVal_eq_ofNat : fieldVal arg = BitVec.ofNat 16 arg.toNat := fieldX_eq_ofNat arg

end

/-- Settles O5: the row of each opcode builds its command from the format's fields, each a slice of the argument. -/
theorem fieldsAreTheStatedBits : Obligations.FieldsAreTheStatedBits := fun arg =>
  ⟨(decode_of_row rfl BitVec.and_zero).trans rfl,
    fun h => (decode_of_row rfl ((and_B arg).mpr h)).trans (by simp only [fieldA_eq_ofNat]),
    fun h => (decode_of_row rfl ((and_BB arg).mpr h)).trans (by simp only [fieldA_eq_ofNat, fieldB_eq_ofNat]),
    fun h => (decode_of_row rfl ((and_BBB arg).mpr h)).trans
      (by simp only [fieldA_eq_ofNat, fieldB_eq_ofNat, fieldC_eq_ofNat]),
    fun h => (decode_of_row rfl ((and_H arg).mpr h)).trans (by simp only [fieldX_eq_ofNat]),
    (decode_of_row rfl BitVec.and_zero).trans (by simp only [fieldX_eq_ofNat, fieldY_eq_ofNat]),
    fun h hlow => (decode_of_row rfl ((and_R arg).mpr ⟨h, hlow⟩)).trans (by simp only [fieldReg_eq_ofNat]),
    fun h => (decode_of_row rfl ((and_RV arg).mpr h)).trans (by simp only [fieldReg_eq_ofNat, fieldVal_eq_ofNat])⟩

/-! ### Illegal words (R90, R91) -/

/-- The opcodes R90 lists. -/
abbrev UnassignedOpcode (op : Byte) : Prop :=
  op.toNat = 0x00 ∨ (0x02 ≤ op.toNat ∧ op.toNat ≤ 0x0F) ∨ op.toNat = 0x12 ∨ op.toNat = 0x13 ∨
    (0x17 ≤ op.toNat ∧ op.toNat ≤ 0x1F) ∨ (0x29 ≤ op.toNat ∧ op.toNat ≤ 0x2F) ∨ 0x36 ≤ op.toNat

theorem rowOf_of_unassigned {op : Byte} (h : UnassignedOpcode op) : rowOf op = none := by
  have hlisted : ∀ r ∈ opcodeMap, ¬ UnassignedOpcode r.opcode := by decide
  cases hrow : rowOf op with
  | none => rfl
  | some r =>
    obtain ⟨hr, rfl⟩ := mem_of_rowOf hrow
    exact absurd h (hlisted r hr)

theorem decode_of_unassigned {op : Byte} (h : UnassignedOpcode op) (arg : Word) :
    decode (op ++ arg) = .error (.unassignedOpcode op) := by
  simp only [decode, opcodeOf_append, rowOf_of_unassigned h]

/-- Settles O6: no row of the opcode map has one of these opcodes. -/
theorem unassignedOpcodesAreIllegal : Obligations.UnassignedOpcodesAreIllegal := fun _ arg h =>
  ⟨decode_of_unassigned h arg, (Machine.illegalWord_of_error (decode_of_unassigned h arg)).2⟩

theorem decode_of_reserved {r : Row} (hr : r ∈ opcodeMap) {arg : Word} (h : arg &&& r.format.reservedMask ≠ 0#32) :
    decode (r.opcode ++ arg) = .error (.reservedBits r.mnemonic arg) := by
  rw [decode_row hr, if_pos h]

/-- Settles O7: the decoder's second test. -/
theorem reservedBitsAreIllegal : Obligations.ReservedBitsAreIllegal := fun _ hr _ h =>
  ⟨decode_of_reserved hr h, (Machine.illegalWord_of_error (decode_of_reserved hr h)).2⟩

/-! ### The table and sample words (R85, R94) -/

/-- Settles O4: the map is a closed list. -/
theorem opcodeMapIsTheTable : Obligations.OpcodeMapIsTheTable := by
  unfold Obligations.OpcodeMapIsTheTable
  decide

theorem assemble_samples :
    assemble "RAND_M 136, 31" = some 0x1600001F88#40 ∧
    assemble "CH_WR VITALITY, 0x1300" = some 0x30000A1300#40 ∧
    assemble "FX_ADD 0x0100, 0x0080" = some 0x2000800100#40 := by decide

/-- Settles O9: each word is the encoding of its command; the three lines are closed text. -/
theorem sampleWordsDecode : Obligations.SampleWordsDecode :=
  ⟨decode_encode .status, decode_encode (.randM 136#8 31#8), decode_encode (.fxAdd 0x0100#16 0x0080#16),
    decode_encode (.fxGinc 0x18#8 0xAD#8 0xB3#8), decode_encode (.chWr 10#8 0x1300#16),
    decode_encode (.range 22#8 2#8), assemble_samples⟩

end Sys2Proof

/-! ## What a command word can answer (30_encoding.md R83) -/

namespace Sys2Proof.Machine

/-- What running a command word can be, in any state: outside the FAULT state a command's end, inside it a refusal, and
`STATUS` in either. -/
theorem runWord_cases {w : CommandWord} {s t : State} (h : runWord w s = .next t) :
    (∃ i, Ends s i t) ∨ (s.fault = 1#1 ∧ t = s.refuse) := by
  by_cases hf : s.fault = 0#1
  · rcases runWord_next h with ⟨i, hi⟩ | rfl
    · exact .inl ⟨i, exec_ends hf hi⟩
    · exact .inl ⟨.status, .raises _⟩
  · have hf := fault_eq_one_of_ne s hf
    rcases runWord_next h with ⟨i, hi⟩ | rfl
    · by_cases hst : i = .status
      · subst hst
        cases hi
        exact .inl ⟨.status, .answers _⟩
      · rw [exec_of_fault hst hf] at hi
        cases hi
        exact .inr ⟨hf, rfl⟩
    · exact .inr ⟨hf, raiseFault_of_fault s _ hf⟩

/-- A response stands in the state, and a FAULT response carries the latched cause. -/
def State.Answered (t : State) : Prop :=
  ∃ r, t.resp = some r ∧ (r.status = .fault → t.fault = 1#1 ∧ r.data.toNat = t.cause.toNat)

theorem respond_answered (s : State) (d : Word) : (s.respond d).Answered := ⟨_, rfl, nofun⟩

theorem refuse_answered {s : State} (h : s.fault = 1#1) : s.refuse.Answered :=
  ⟨_, rfl, fun _ => ⟨h, by
    have := s.cause.isLt
    rw [refuse_cause, BitVec.toNat_setWidth]
    omega⟩⟩

theorem raiseFault_answered (s : State) (c : Cause) : (s.raiseFault c).Answered := refuse_answered (latch_fault s c)

/-- A level-up that completes has answered (R170). -/
theorem levelUp_answered {s t : State} (h : levelUp s = .ok t) : t.Answered := by
  obtain ⟨grown, -, h⟩ := bind_eq_ok h
  obtain ⟨derived, -, h⟩ := bind_eq_ok h
  cases h
  exact respond_answered derived _

theorem ends_answered {s t : State} {i : Instr} (h : Ends s i t) : t.Answered := by
  cases h with
  | answers | seeds | draws | writes | changesJob | changesPers => exact respond_answered _ _
  | raises | leavesUnsaid => exact raiseFault_answered _ _
  | levelsUp _ hu => exact levelUp_answered hu

theorem runWord_answered {w : CommandWord} {s t : State} (h : runWord w s = .next t) : t.Answered := by
  rcases runWord_cases h with ⟨i, hi⟩ | ⟨hf, rfl⟩
  · exact ends_answered hi
  · exact refuse_answered hf

/-- Settles O25: every end of a command answers `(OK, v)`, or latches a cause and answers that. -/
theorem faultResponsesCarryTheCause : Obligations.FaultResponsesCarryTheCause := fun _ _ _ h => runWord_answered h

/-- No command takes an input or presents one. -/
theorem ends_pending {s t : State} {i : Instr} (h : Ends s i t) : t.pending = s.pending := by
  cases h with
  | answers | seeds | draws | changesJob | changesPers => rfl
  | raises c => exact raiseFault_pending s c
  | writes hw =>
    obtain ⟨-, -, -, -, -, hpending, -⟩ := writeReg_frame hw
    exact hpending
  | levelsUp _ hu =>
    obtain ⟨-, hpending, -⟩ := (levelUp_frame hu).outside
    exact hpending
  | leavesUnsaid c => exact raiseFault_pending s.leaveUnsaid c

theorem runWord_pending {w : CommandWord} {s t : State} (h : runWord w s = .next t) : t.pending = s.pending := by
  rcases runWord_cases h with ⟨i, hi⟩ | ⟨-, rfl⟩
  · exact ends_pending hi
  · exact refuse_pending s

/-! ### No stop where the character's records exist (20_memory.md R54) -/

theorem whenRunning_answers {s : State} {k : Host.Outcome State Fault Refusal} (h : ∃ t, k = .next t) :
    ∃ t, whenRunning s k = .next t := by
  rw [whenRunning]
  split
  · exact h
  · exact ⟨_, rfl⟩

theorem complete_answers {s : State} {r : Except Abandon State}
    (h : (∃ t, r = .ok t) ∨ r = .error (.raised .table)) : ∃ t, complete s r = .next t := by
  rcases h with ⟨t, rfl⟩ | rfl <;> exact ⟨_, rfl⟩

section
variable {s : State} (hj : s.job.toNat < s.cfg.njobs)
include hj

theorem execLvlup_answers (hp : s.pers.toNat < s.cfg.npers) : ∃ t, execLvlup s = .next t := by
  refine whenRunning_answers ?_
  split
  · exact ⟨_, rfl⟩
  · refine complete_answers ?_
    rcases levelUp_cases s hj hp (by omega) with ⟨t, ht, -⟩ | htable
    · exact .inl ⟨t, ht⟩
    · exact .inr htable

theorem execRange_answers (l b : Byte) : ∃ t, execRange l b s = .next t := by
  refine whenRunning_answers ?_
  split
  · exact ⟨_, rfl⟩
  next a _ =>
    split
    · exact ⟨_, rfl⟩
    · refine complete_answers ?_
      rcases rangeAttr_ok_or_table s.cfg hj l.toNat a with ⟨r, hr⟩ | htable
      · exact .inl ⟨s.respond (packRange r), by rw [hr]; rfl⟩
      · exact .inr (by rw [htable]; rfl)

end

theorem execRandM_answers (o m : Byte) (s : State) : ∃ t, execRandM o m s = .next t := by
  refine whenRunning_answers ?_
  split <;> exact ⟨_, rfl⟩

theorem execChWr_answers (reg : Byte) (val : BitVec 16) (s : State) : ∃ t, execChWr reg val s = .next t := by
  refine whenRunning_answers ?_
  split
  · exact ⟨_, rfl⟩
  · split <;> exact ⟨_, rfl⟩

theorem execChRd_answers (reg : Byte) (s : State) : ∃ t, execChRd reg s = .next t := by
  refine whenRunning_answers ?_
  split <;> exact ⟨_, rfl⟩

theorem execJobchg_answers (j : Byte) (s : State) : ∃ t, execJobchg j s = .next t := by
  refine whenRunning_answers ?_
  split <;> exact ⟨_, rfl⟩

theorem execPerschg_answers (p : Byte) (s : State) : ∃ t, execPerschg p s = .next t := by
  refine whenRunning_answers ?_
  split <;> exact ⟨_, rfl⟩

/-- Where `JOB` and `PERS` name records, every command answers: only `LVLUP` and `RANGE` read the ROMs, and they read
those records. -/
theorem exec_answers {s : State} (hj : s.job.toNat < s.cfg.njobs) (hp : s.pers.toNat < s.cfg.npers) (i : Instr) :
    ∃ t, exec i s = .next t := by
  cases i with
  | status => exact ⟨_, rfl⟩
  | rngSeed | rngRead | randU | randS => exact whenRunning_answers ⟨_, rfl⟩
  | fxAdd | fxSub | fxMul | fxHalf | fxW44 | fxW17 | fxTrunc | fxFromint | fxGinc =>
    exact whenRunning_answers ⟨_, rfl⟩
  | randM o m => exact execRandM_answers o m s
  | chWr reg val => exact execChWr_answers reg val s
  | chRd reg => exact execChRd_answers reg s
  | lvlup => exact execLvlup_answers hj hp
  | jobchg j => exact execJobchg_answers j s
  | perschg p => exact execPerschg_answers p s
  | range l b => exact execRange_answers hj l b

theorem runWord_answers {s : State} (hj : s.job.toNat < s.cfg.njobs) (hp : s.pers.toNat < s.cfg.npers)
    (w : CommandWord) : ∃ t, runWord w s = .next t := by
  cases hd : decode w with
  | ok i => rw [runWord_of_ok hd]; exact exec_answers hj hp i
  | error e => exact ⟨_, (runWord_of_error hd s).trans (illegalCommand_eq s)⟩

/-- Settles O16: an idle step and a reset always answer; a command word answers because a legal state's `JOB` and
`PERS` name records, and it leaves a response. -/
theorem legalStatesAlwaysAnswer : Obligations.LegalStatesAlwaysAnswer := by
  intro s hs
  rcases step_cases s with ⟨hnil, hidle⟩ | ⟨rest, hreset, hstep⟩ | ⟨w, rest, hword, hstep⟩
  · exact ⟨s, hidle, by simp only [hnil, List.tail_nil], by simp only [hnil]; nofun⟩
  · exact ⟨_, hstep, by simp only [hreset, List.tail_cons, applyReset_pending], by simp only [hreset]; nofun⟩
  · obtain ⟨t, ht⟩ := runWord_answers (s := { s with pending := rest }) hs.job_lt hs.pers_lt w
    obtain ⟨r, hr, -⟩ := runWord_answered ht
    exact ⟨t, hstep.trans ht, by rw [runWord_pending ht, hword, List.tail_cons], fun _ _ _ => by rw [hr]; rfl⟩

end Sys2Proof.Machine

/-! ## Fields that select nothing (30_encoding.md R92) -/

namespace Sys2Proof.Machine

theorem regOfField_eq_none {reg : Byte} (h : reg.toNat = 6 ∨ reg.toNat = 7 ∨ 13 ≤ reg.toNat) :
    regOfField reg = none := by
  unfold regOfField
  split
  case h_12 => rfl
  all_goals omega

theorem attrOfField_eq_none {b : Byte} (h : 4 < b.toNat) : attrOfField b = none := by
  unfold attrOfField
  split
  case h_6 => rfl
  all_goals omega

/-- Settles O8: the lookup of the field is the first check of the three commands. -/
theorem fieldsThatSelectNothingAreIllegal : Obligations.FieldsThatSelectNothingAreIllegal := by
  intro s hg
  have hillegal : s.raiseFault .illegal = s.afterFault 4#8 := raiseFault_of_good s .illegal hg
  refine ⟨fun reg val hreg => ⟨?_, ?_⟩, fun level attr hattr => ?_⟩
  · simp only [exec_chWr hg, regOfField_eq_none hreg, hillegal]
  · simp only [exec_chRd hg, regOfField_eq_none hreg, hillegal]
  · simp only [exec_range hg, attrOfField_eq_none hattr, hillegal]

end Sys2Proof.Machine

/-! ## `CH_INIT` (30_encoding.md R95) -/

namespace Sys2Proof.Machine

/-! ### The writes that pass their check (42_growth.md R176) -/

section
variable {s : State} {val : BitVec 16}

theorem writeReg_level (h1 : 1 ≤ val.toNat) (h99 : val.toNat ≤ 99) :
    s.writeReg .level val = .ok { s with level := val.setWidth 7 } := if_neg (by omega)

theorem writeReg_maxhp : s.writeReg .maxhp val = .ok { s with maxhp := val } := rfl

theorem writeReg_maxmp : s.writeReg .maxmp val = .ok { s with maxmp := val } := rfl

theorem writeReg_attr (a : Attr) : s.writeReg (.attr a) val = .ok (s.setAttr a val) := rfl

theorem writeReg_sex (h : val.toNat ≤ 1) : s.writeReg .sex val = .ok { s with sex := val.setWidth 1 } :=
  if_neg (by omega)

theorem writeReg_pers (h : val.toNat < s.cfg.npers) :
    s.writeReg .pers val = .ok { s with pers := val.setWidth 8 } := if_neg (by omega)

theorem writeReg_job (h : val.toNat < s.cfg.njobs) :
    s.writeReg .job val = .ok { s with job := val.setWidth 8 } := if_neg (by omega)

end

/-- The `reg` field that names a register (R23). -/
def fieldOfReg : CReg → Byte
  | .level => 0#8
  | .maxhp => 1#8
  | .maxmp => 2#8
  | .sex => 3#8
  | .pers => 4#8
  | .job => 5#8
  | .attr a => BitVec.ofNat 8 (8 + attrIndex a)

theorem regOfField_fieldOfReg (r : CReg) : regOfField (fieldOfReg r) = some r := by
  cases r with
  | attr a => cases a <;> rfl
  | level | maxhp | maxmp | sex | pers | job => rfl

/-- Checked writes in turn, each answering 0; the first refused one ends them. -/
def State.writeAll : State → List (CReg × BitVec 16) → Except Cause State
  | s, [] => .ok s
  | s, (r, v) :: ws => s.writeReg r v >>= fun s' => (s'.respond 0#32).writeAll ws

/-- Presenting one `CH_WR` word per register is writing the registers in turn (R176). -/
theorem runWords_of_writeAll {ws : List (CReg × BitVec 16)} {s t : State} (hg : s.Good)
    (h : s.writeAll ws = .ok t) :
    runWords ((ws.map fun w => Instr.chWr (fieldOfReg w.1) w.2).map encode) s = .next t := by
  induction ws generalizing s with
  | nil => cases h; rfl
  | cons w ws ih =>
    obtain ⟨s', hw, h⟩ := bind_eq_ok h
    obtain ⟨-, hfault, -⟩ := writeReg_frame hw
    have hexec : exec (.chWr (fieldOfReg w.1) w.2) s = .next (s'.respond 0#32) := by
      simp only [exec_chWr hg, regOfField_fieldOfReg, hw]
    simp only [List.map_cons, runWords, step_present, runWord_of_ok (decode_encode _), hexec]
    exact ih (hfault.trans hg) h

/-- `s` with the eleven registers at the values of a `CH_INIT` record, and the answer of its last write. -/
def State.initialised (s : State) (level hp mp pow spd vit int luk sex pers job : BitVec 16) : State :=
  { s with
    job := job.setWidth 8, pers := pers.setWidth 8, sex := sex.setWidth 1, level := level.setWidth 7, maxhp := hp,
    maxmp := mp, power := pow, speed := spd, vitality := vit, intelligence := int, luck := luk,
    resp := some ⟨.ok, 0#32⟩ }

/-- The writes of `CH_INIT`, in the order of R95. -/
def chInitWrites (level hp mp pow spd vit int luk sex pers job : BitVec 16) : List (CReg × BitVec 16) :=
  [(.job, job), (.pers, pers), (.sex, sex), (.level, level), (.maxhp, hp), (.maxmp, mp), (.attr .power, pow),
   (.attr .speed, spd), (.attr .vitality, vit), (.attr .intelligence, int), (.attr .luck, luk)]

theorem writeAll_chInitWrites {s : State} {level hp mp pow spd vit int luk sex pers job : BitVec 16}
    (h1 : 1 ≤ level.toNat) (h99 : level.toNat ≤ 99) (hsex : sex.toNat ≤ 1) (hpers : pers.toNat < s.cfg.npers)
    (hjob : job.toNat < s.cfg.njobs) :
    s.writeAll (chInitWrites level hp mp pow spd vit int luk sex pers job) =
      .ok (s.initialised level hp mp pow spd vit int luk sex pers job) := by
  simp only [chInitWrites, State.writeAll, writeReg_job hjob, writeReg_pers, hpers, writeReg_sex hsex,
    writeReg_level h1 h99, writeReg_maxhp, writeReg_maxmp, writeReg_attr, State.setAttr, State.respond, bind,
    Except.bind, State.initialised]

/-- A value that fits is not truncated by its register. -/
theorem setWidth_toNat_of_lt {val : BitVec 16} {k : Nat} (h : val.toNat < 2 ^ k) :
    (val.setWidth k).toNat = val.toNat := by
  rw [BitVec.toNat_setWidth, Nat.mod_eq_of_lt h]

/-- Settles O10: the values pass the checks of R176, so each fits its register, and no write touches anything else. -/
theorem chInitBuildsTheCharacter : Obligations.ChInitBuildsTheCharacter := by
  intro s level hp mp pow spd vit int luk sex pers job hg h1 h99 hsex hpers hnpers hjob hnjobs
  exact
    ⟨_, runWords_of_writeAll hg (writeAll_chInitWrites h1 h99 hsex hpers hjob), setWidth_toNat_of_lt (by omega),
      rfl, rfl, rfl, rfl, rfl, rfl, rfl, setWidth_toNat_of_lt (by omega), setWidth_toNat_of_lt (by omega),
      setWidth_toNat_of_lt (by omega), rfl, rfl, rfl, rfl, rfl, rfl⟩

end Sys2Proof.Machine

/-! ## Bit ranges (40_bitops_rng.md R100, R101) -/

namespace Sys2Proof.Machine

/-- `range` on naturals: drop the bits below `b`, keep the next `e - b` (R101). -/
theorem rangeBits_toNat {w : Nat} (v : BitVec w) {b e : Nat} (h : b ≤ e) :
    (rangeBits v b e).toNat = v.toNat / 2 ^ b % 2 ^ (e - b) := by
  have hkept : ∀ i, b + i < e ↔ i < e - b := fun i => by omega
  refine Nat.eq_of_testBit_eq fun i => ?_
  rw [BitVec.testBit_toNat, rangeBits_getLsbD v h, Nat.testBit_mod_two_pow, Nat.testBit_div_two_pow,
    BitVec.testBit_toNat, Nat.add_comm i b, Bool.and_comm]
  simp only [hkept]

/-- Settles O27: the mask of `extract` has exactly the bits [b, e), and `range` shifts them down. -/
theorem extractAndRangeSelectBits : Obligations.ExtractAndRangeSelectBits := by
  intro w v b e hbe _
  exact ⟨fun i => by rw [extract_getLsbD v hbe, Bool.decide_and], rangeBits_toNat v hbe⟩

end Sys2Proof.Machine

/-! ## Powers of two and legal masks (40_bitops_rng.md R102) -/

namespace Sys2Proof.Machine

section
variable {w : Nat} (v : BitVec w)

theorem isPowerOfTwo_iff_and : isPowerOfTwo v = true ↔ v ≠ 0#w ∧ v &&& (v - 1#w) = 0#w := by
  simp only [isPowerOfTwo, Bool.and_eq_true, bne_iff_ne, beq_iff_eq]

/-- Below a value that is not 0 there is its predecessor: no borrow at any width. -/
theorem toNat_sub_one (h : 0 < v.toNat) : (v - 1#w).toNat = v.toNat - 1 := by
  have hone : (1#w).toNat = 1 := by
    have := v.isLt
    rw [BitVec.toNat_ofNat, Nat.mod_eq_of_lt (by omega)]
  rw [BitVec.toNat_sub_of_le (by rw [BitVec.le_def]; omega), hone]

/-- The test of R102, at any width, is the test on naturals. -/
theorem isPowerOfTwo_iff_toNat : isPowerOfTwo v = true ↔ v.toNat.isPowerOfTwo := by
  rw [isPowerOfTwo_iff_and]
  by_cases h : v = 0#w
  · have hzero : v.toNat = 0 := by rw [h, BitVec.toNat_ofNat, Nat.zero_mod]
    rw [hzero]
    exact iff_of_false (fun hv => hv.1 h) Nat.not_isPowerOfTwo_zero
  · have hpos := BitVec.toNat_pos_of_ne_zero h
    rw [and_iff_right h, ← Nat.and_sub_one_eq_zero_iff_isPowerOfTwo hpos.ne', ← BitVec.toNat_inj, BitVec.toNat_and,
      toNat_sub_one v hpos, BitVec.toNat_ofNat, Nat.zero_mod]

end

section
variable (m : Byte)

/-- Nine bits hold the successor of every mask. -/
theorem maskOk_iff_succ : maskOk m = true ↔ (m.toNat + 1).isPowerOfTwo := by
  have hsucc : (m.setWidth 9 + 1#9).toNat = m.toNat + 1 := by
    have := m.isLt
    rw [BitVec.toNat_add, BitVec.toNat_setWidth, BitVec.toNat_ofNat]
    omega
  rw [maskOk, isPowerOfTwo_iff_toNat, hsucc]

/-- The ninth bit of the successor meets no bit of the mask, so eight bits tell the same. -/
theorem maskOk_iff_and : maskOk m = true ↔ m &&& (m + 1#8) = 0#8 := by
  have hand : (m &&& (m + 1#8)).toNat = (m.toNat + 1) &&& m.toNat := by
    calc (m &&& (m + 1#8)).toNat
        = m.toNat &&& (m.toNat + 1) % 2 ^ 8 := by rw [BitVec.toNat_and, BitVec.toNat_add]; rfl
      _ = (m.toNat &&& (m.toNat + 1)) % 2 ^ 8 := by rw [Nat.and_mod_two_pow, Nat.mod_eq_of_lt m.isLt]
      _ = m.toNat &&& (m.toNat + 1) := Nat.mod_eq_of_lt (Nat.and_le_left.trans_lt m.isLt)
      _ = (m.toNat + 1) &&& m.toNat := Nat.and_comm _ _
  rw [maskOk_iff_succ, ← Nat.and_sub_one_eq_zero_iff_isPowerOfTwo (by omega), Nat.add_sub_cancel, ← hand,
    ← BitVec.toNat_inj, BitVec.toNat_ofNat, Nat.zero_mod]

/-- The nine legal masks: the successor is at most 256. -/
theorem maskOk_iff_exists : maskOk m = true ↔ ∃ k, k ≤ 8 ∧ m.toNat = 2 ^ k - 1 := by
  rw [maskOk_iff_succ]
  constructor
  · rintro ⟨k, hk⟩
    have hle : 2 ^ k ≤ 2 ^ 8 := by have := m.isLt; omega
    exact ⟨k, (Nat.pow_le_pow_iff_right (by decide)).mp hle, by omega⟩
  · rintro ⟨k, -, hk⟩
    have := Nat.two_pow_pos k
    exact ⟨k, by omega⟩

end

/-- Settles O28: both tests are tests on naturals, where `n` and `n - 1` share a bit unless `n` is a power of two. -/
theorem legalMasksAreTheNine : Obligations.LegalMasksAreTheNine :=
  ⟨fun _ v => ⟨isPowerOfTwo_iff_and v, isPowerOfTwo_iff_toNat v⟩,
    fun m => ⟨maskOk_iff_and m, maskOk_iff_exists m⟩⟩

end Sys2Proof.Machine

/-! ## The transition (40_bitops_rng.md R103, R104) -/

namespace Sys2Proof.Machine

/-- The byte shifted in, on naturals: `tmp` has at most 19 bits, so nothing is lost in 32 (R103). -/
theorem newByte_toNat (x : Word) :
    (newByte x).toNat =
      ((((x.toNat % 2 ^ 16) <<< 2) ^^^ (x.toNat / 2 ^ 16)) <<< 1) / 2 ^ 8 % 2 ^ 8 := by
  have hx := x.isLt
  have hupper : (rangeBits x 16 32).toNat = x.toNat / 2 ^ 16 := by
    rw [rangeBits_toNat x (by decide)]
    omega
  have hlower : (rangeBits x 0 16).toNat = x.toNat % 2 ^ 16 := by
    rw [rangeBits_toNat x (by decide), Nat.pow_zero, Nat.div_one]
  have hshift : (x.toNat % 2 ^ 16) <<< 2 < 2 ^ 18 := by
    rw [Nat.shiftLeft_eq]
    omega
  have hxor : ((x.toNat % 2 ^ 16) <<< 2 ^^^ x.toNat / 2 ^ 16) < 2 ^ 18 := Nat.xor_lt_two_pow hshift (by omega)
  rw [newByte, rangeBits_toNat _ (by decide), BitVec.toNat_shiftLeft, BitVec.toNat_xor, BitVec.toNat_shiftLeft, hupper,
    hlower, Nat.mod_eq_of_lt (a := _ <<< 2) (by omega), Nat.mod_eq_of_lt (a := _ <<< 1)]
  rw [Nat.shiftLeft_eq]
  omega

/-- Settles O29: the shifted state, and the byte shifted in. -/
theorem transitionOnNaturals : Obligations.TransitionOnNaturals := fun x => by
  rw [rngNext, BitVec.toNat_or, BitVec.toNat_shiftLeft, newByte_toNat]

/-- Bit `i` of the byte shifted in is bit `i + 5` of the state XOR bit `i + 23` (R104). -/
theorem newByte_eq_append (x : Word) : newByte x = 0#24 ++ (x.extractLsb' 5 8 ^^^ x.extractLsb' 23 8) := by
  refine BitVec.eq_of_getLsbD_eq fun i _ => ?_
  rw [newByte, rangeBits_getLsbD _ (by decide), BitVec.getLsbD_append]
  by_cases hi : i < 8
  · have htmp : 8 + i = 5 + i + 2 + 1 := by omega
    have hupper : 16 + (5 + i + 2) = 23 + i := by omega
    rw [if_pos hi, htmp]
    simp (disch := omega) only [rangeBits_getLsbD, BitVec.getLsbD_shiftLeft, BitVec.getLsbD_xor,
      BitVec.getLsbD_extractLsb', Nat.add_sub_cancel, Nat.zero_add, hupper, decide_eq_true, decide_eq_false,
      Bool.not_false, Bool.true_and, Bool.and_true]
  · have hout : ¬ 8 + i < 16 := by omega
    simp [hi, hout]

theorem shiftLeft_eight_eq_append (x : Word) : x <<< 8 = x.extractLsb' 0 24 ++ 0#8 :=
  BitVec.shiftLeft_eq_concat_of_lt (by decide)

theorem rngNext_eq_append (x : Word) :
    rngNext x = x.extractLsb' 0 24 ++ (x.extractLsb' 5 8 ^^^ x.extractLsb' 23 8) := by
  rw [rngNext, shiftLeft_eight_eq_append, newByte_eq_append, BitVec.or_append, BitVec.or_zero, BitVec.zero_or]

theorem rngNext_xor (x y : Word) : rngNext (x ^^^ y) = rngNext x ^^^ rngNext y := by
  rw [rngNext_eq_append, rngNext_eq_append x, rngNext_eq_append y, BitVec.xor_append]
  simp only [BitVec.extractLsb'_xor]
  ac_rfl

/-- Settles O30: XOR goes through every slice of the closed form. -/
theorem transitionClosedForm : Obligations.TransitionClosedForm :=
  ⟨rngNext_eq_append, rngNext_xor, by decide⟩

end Sys2Proof.Machine

/-! ## The RNG commands (40_bitops_rng.md R105 to R109) -/

namespace Sys2Proof.Machine

/-- A word with a one among its format's reserved bits is an illegal command (R91). -/
theorem illegalWord_of_reserved {op : Byte} {r : Row} (hr : rowOf op = some r) {arg : Word}
    (harg : arg &&& r.format.reservedMask ≠ 0#32) : IllegalWord (op ++ arg) := by
  obtain ⟨hmem, rfl⟩ := mem_of_rowOf hr
  exact illegalWord_of_error (decode_of_reserved hmem harg)

section
variable {op : Byte} {r : Row} (hr : rowOf op = some r) {arg : Word}
include hr

theorem illegalWord_of_format_N (hf : r.format = .N) (h : arg ≠ 0#32) : IllegalWord (op ++ arg) :=
  illegalWord_of_reserved hr (by rwa [hf, and_N])

theorem illegalWord_of_format_B (hf : r.format = .B) (h : 2 ^ 8 ≤ arg.toNat) : IllegalWord (op ++ arg) :=
  illegalWord_of_reserved hr (by rwa [hf, ne_eq, and_B, Nat.not_lt])

theorem illegalWord_of_format_BB (hf : r.format = .BB) (h : 2 ^ 16 ≤ arg.toNat) : IllegalWord (op ++ arg) :=
  illegalWord_of_reserved hr (by rwa [hf, ne_eq, and_BB, Nat.not_lt])

end

/-- An answer is its value, zero-extended (R83). -/
theorem respond_setWidth {k : Nat} (s : State) (x : BitVec k) : s.respond (x.setWidth 32) = s.afterOk x.toNat := by
  rw [State.respond, State.afterOk, BitVec.ofNat_toNat]

/-- Settles O31: `RNG_SEED` has no reserved bit, `RNG_READ` only reserved bits. -/
theorem rngSeedLoadsAndRngReadAnswers : Obligations.RngSeedLoadsAndRngReadAnswers := by
  intro s hg
  refine ⟨fun v => ⟨decode_encode (.rngSeed v), exec_rngSeed hg v⟩, decode_encode .rngRead,
    fun _ h => illegalWord_of_format_N rfl rfl h, ?_⟩
  rw [exec_rngRead hg, ← respond_setWidth, BitVec.setWidth_eq]

/-- Settles O32: the answer is the low byte of the state the one transition leaves. -/
theorem randUAnswersTheNewLowByte : Obligations.RandUAnswersTheNewLowByte := by
  intro s hg
  refine ⟨decode_encode .randU, fun _ h => illegalWord_of_format_N rfl rfl h, ?_⟩
  rw [exec_randU hg, respond_setWidth, BitVec.toNat_setWidth]

/-- A byte scaled by `upper + 1` and floored does not exceed `upper` (R108). -/
theorem scaled_le (u upper : Nat) : u % 2 ^ 8 * (upper + 1) / 2 ^ 8 ≤ upper := by
  have hmul : u % 2 ^ 8 * (upper + 1) < 2 ^ 8 * (upper + 1) :=
    Nat.mul_lt_mul_of_pos_right (Nat.mod_lt u (by decide)) upper.succ_pos
  exact Nat.lt_succ_iff.mp (Nat.div_lt_of_lt_mul hmul)

theorem randScaled_toNat (upper : Byte) (x : Word) :
    (randScaled upper x).1.toNat = (rngNext x).toNat % 2 ^ 8 * (upper.toNat + 1) / 2 ^ 8 := by
  have hle := scaled_le (rngNext x).toNat upper.toNat
  have hlt := upper.isLt
  rw [randScaled, randUniform_byte, BitVec.toNat_setWidth, Nat.shiftRight_eq_div_pow, BitVec.toNat_ofNat,
    Nat.mod_eq_of_lt (by omega)]

theorem argB_eq_setWidth (a : Byte) : argB a = a.setWidth 32 :=
  (BitVec.setWidth_eq_append (by decide)).symm

/-- Settles O33: the scaled draw fits a byte because it never exceeds `upper`. -/
theorem randSScalesTheDraw : Obligations.RandSScalesTheDraw := by
  intro upper s hg
  refine ⟨?_, fun _ h => illegalWord_of_format_B rfl rfl h, ?_, scaled_le _ _⟩
  · rw [← argB_eq_setWidth]
    exact decode_encode (.randS upper)
  · rw [exec_randS hg, respond_setWidth, randScaled_toNat]

/-- The sum of R109 on naturals. -/
theorem multinomialSum_toNat (offset mask : Byte) (x : Word) :
    (multinomialSum offset mask x).toNat =
      (offset.toNat + ∑ k ∈ Finset.range 16, ((rngNext^[k + 1] x).toNat % 2 ^ 8 &&& mask.toNat)) % 256 := by
  simp only [multinomialSum, BitVec.toNat_ofNat, BitVec.toNat_and, BitVec.toNat_setWidth]

/-- Settles O34: the mask decides, before any transition, between sixteen draws and `MASK`. -/
theorem randMSumsSixteenDraws : Obligations.RandMSumsSixteenDraws := by
  intro offset mask s hg
  refine ⟨decode_encode (.randM offset mask), fun _ h => illegalWord_of_format_BB rfl rfl h, fun hm => ?_,
    fun hm => exec_randM_bad hg offset ?_⟩
  · rw [exec_randM_ok hg offset ((maskOk_iff_exists mask).mpr hm), respond_setWidth, multinomialSum_toNat]
  · rwa [← maskOk_iff_exists, Bool.not_eq_true] at hm

end Sys2Proof.Machine

/-! ## How many transitions each command performs (40_bitops_rng.md R111) -/

namespace Sys2Proof.Machine

/-- The generator has gone from `x` to `y` in at least `lo` and at most `hi` transitions. -/
def Advances (lo hi : Nat) (x y : Word) : Prop := ∃ n, lo ≤ n ∧ n ≤ hi ∧ y = rngNext^[n] x

theorem Advances.trans {lo hi lo' hi' : Nat} {x y z : Word} (h : Advances lo hi x y) (h' : Advances lo' hi' y z) :
    Advances (lo + lo') (hi + hi') x z := by
  obtain ⟨n, hlo, hhi, rfl⟩ := h
  obtain ⟨m, hlo', hhi', rfl⟩ := h'
  exact ⟨m + n, by omega, by omega, (Function.iterate_add_apply rngNext m n x).symm⟩

/-- Growth draws once where `ATTR[a]` is ahead of its curve, sixteen times elsewhere (R167). -/
theorem GrowStep.advances {c : Cfg} {j p L : Nat} {a : Attr} {cur new : Fix88} {x y : Word}
    (h : GrowStep c j p L a cur x new y) : Advances 1 16 x y := by
  obtain ⟨_, _, ⟨_, hy, _⟩ | ⟨_, hy, _⟩⟩ := h
  · exact ⟨1, by decide, by decide, hy⟩
  · exact ⟨16, by decide, by decide, hy⟩

/-- Five attributes grow over one generator, in turn (R170). -/
theorem LevelUpTo.advances {s t : State} (h : LevelUpTo s t) : Advances 5 80 s.rng t.rng := by
  obtain ⟨r1, r2, r3, r4, hpow, hspd, hvit, hint, hluk⟩ := h.grown
  exact hpow.advances.trans <| hspd.advances.trans <| hvit.advances.trans <| hint.advances.trans hluk.advances

/-- A level-up that answers, for a character with records, is a completed one (R170). -/
theorem levelUpTo_of_ok {s t : State} (hs : s.Legal) (hl : s.level.toNat < 99) (h : levelUp s = .ok t) :
    LevelUpTo s t := by
  rcases levelUp_cases s hs.job_lt hs.pers_lt hl with ⟨t', h', hto⟩ | h'
  · cases h.symm.trans h'
    exact hto
  · cases h.symm.trans h'

section
variable {s t : State} (hg : s.Good)
include hg

theorem randM_rng {o m : Byte} (h : exec (.randM o m) s = .next t) :
    t.rng = if t.fault = 1#1 then s.rng else rngNext^[16] s.rng := by
  cases hm : maskOk m with
  | true =>
    rw [exec_randM_ok hg o hm] at h
    cases h
    have hrunning : s.fault ≠ 1#1 := by rw [hg]; decide
    exact (if_neg hrunning).symm
  | false =>
    rw [exec_randM_bad hg o hm] at h
    cases h
    rfl

theorem lvlup_advances (hl : s.Legal) (h : exec .lvlup s = .next t) (ht : t.Good) : Advances 5 80 s.rng t.rng := by
  rcases Nat.lt_or_ge s.level.toNat 99 with hlt | hge
  · rw [exec_lvlup_run hg hlt] at h
    rcases complete_next h with hu | ⟨c, -, rfl⟩
    · exact (levelUpTo_of_ok hl hlt hu).advances
    · exact absurd ht (not_good_raiseFault _ c)
  · rw [exec_lvlup_level hg hge] at h
    cases h
    exact absurd ht (show 1#1 ≠ 0#1 by decide)

/-- The commands listed are the only ones that write RNG, whether they fault or not (R20). -/
theorem rng_eq_of_no_draw {i : Instr} (h : exec i s = .next t) (hseed : ∀ v, i ≠ .rngSeed v) (hu : i ≠ .randU)
    (hs : ∀ u, i ≠ .randS u) (hm : ∀ o m, i ≠ .randM o m) (hl : i ≠ .lvlup) : t.rng = s.rng := by
  cases exec_ends hg h with
  | answers | changesJob | changesPers => rfl
  | raises c => exact raiseFault_rng s c
  | seeds v => exact absurd rfl (hseed v)
  | draws r d hi =>
    rcases hi with hi | ⟨u, hi⟩ | ⟨o, m, hi⟩
    · exact absurd hi hu
    · exact absurd hi (hs u)
    · exact absurd hi (hm o m)
  | writes hw =>
    obtain ⟨hrng, -⟩ := writeReg_frame hw
    exact hrng
  | levelsUp | leavesUnsaid => exact absurd rfl hl

end

/-- Settles O35: each command that draws by its own equation, the others by the ways a command can end. -/
theorem transitionsPerCommand : Obligations.TransitionsPerCommand := by
  intro i s t hg hl h
  refine ⟨?_, ?_, ?_, ?_, ?_, rng_eq_of_no_draw hg h⟩
  · rintro v rfl
    cases (exec_rngSeed hg v).symm.trans h
    rfl
  · rintro rfl
    cases (exec_randU hg).symm.trans h
    rfl
  · rintro u rfl
    cases (exec_randS hg u).symm.trans h
    rfl
  · rintro o m rfl
    exact randM_rng hg h
  · rintro rfl ht
    exact lvlup_advances hg hl h ht

end Sys2Proof.Machine

/-! ## The fixed-point unit (41_fixedpoint.md R134 to R144) -/

namespace Sys2Proof.Machine

/-! ### The increment pipe (R143) -/

/-- Bits 4 to 11 of `n >> 3` are bits 7 to 14 of `n`, left in place. -/
theorem shifted_and_mask (n : Nat) : n / 2 ^ 3 &&& 0x0FF0 = n / 2 ^ 7 % 2 ^ 8 * 2 ^ 4 := by
  have hlow : (n / 2 ^ 3 &&& 0x0FF0) % 2 ^ 4 = 0 := by rw [Nat.and_mod_two_pow]; exact Nat.and_zero _
  have hhigh : (n / 2 ^ 3 &&& 0x0FF0) / 2 ^ 4 = n / 2 ^ 7 % 2 ^ 8 := by
    rw [Nat.and_div_two_pow, Nat.div_div_eq_div_mul]
    exact Nat.and_two_pow_sub_one_eq_mod _ 8
  omega

/-- The pipe on naturals: sixteen bits hold the product of two bytes, so nothing is lost before the mask. -/
theorem growInc_toNat (g : Fix44) (r : Byte) (f : Fix17) :
    (growInc g r f).toNat =
      min 0xFFFF (((g.toNat * r.toNat / 2 ^ 3) &&& 0x0FF0) * (2 * f.toNat) / 2 ^ 8) := by
  have hprod : g.toNat * r.toNat < 2 ^ 8 * 2 ^ 8 := Nat.mul_lt_mul'' g.isLt r.isLt
  have hp : (g.setWidth 16 * r.setWidth 16).toNat = g.toNat * r.toNat := by
    rw [BitVec.toNat_mul, BitVec.toNat_setWidth_of_le (by decide), BitVec.toNat_setWidth_of_le (by decide),
      Nat.mod_eq_of_lt (b := 2 ^ 16) hprod]
  rw [growInc, mul88_toNat, widen17_toNat, BitVec.toNat_and, BitVec.toNat_ushiftRight, Nat.shiftRight_eq_div_pow, hp]
  rfl

/-- The value of R143 before it could saturate is at most `255 * 16 * 255 / 128`. -/
theorem pipe_le (n : Nat) (f : Fix17) : n / 2 ^ 7 % 2 ^ 8 * 2 ^ 4 * f.toNat / 2 ^ 7 ≤ 0x1FC0 := by
  have hm : n / 2 ^ 7 % 2 ^ 8 * 2 ^ 4 ≤ 255 * 2 ^ 4 := by omega
  have hf : f.toNat ≤ 255 := Nat.le_of_lt_succ f.isLt
  exact Nat.div_le_div_right (c := 2 ^ 7) (Nat.mul_le_mul hm hf)

theorem growInc_closed (g : Fix44) (r : Byte) (f : Fix17) :
    (growInc g r f).toNat = g.toNat * r.toNat / 2 ^ 7 % 2 ^ 8 * 2 ^ 4 * f.toNat / 2 ^ 7 := by
  have hle := pipe_le (g.toNat * r.toNat) f
  have hhalve (m : Nat) : m * (2 * f.toNat) / 2 ^ 8 = m * f.toNat / 2 ^ 7 := by
    rw [Nat.mul_left_comm]
    exact Nat.mul_div_mul_left _ (2 ^ 7) Nat.two_pos
  rw [growInc_toNat, shifted_and_mask, hhalve]
  exact Nat.min_eq_right (by omega)

/-- Settles O43: the mask of the pipe is a truncation, and the doubled factor cancels one bit of the last shift. -/
theorem incrementPipeClosedForm : Obligations.IncrementPipeClosedForm := fun g r f =>
  ⟨growInc_closed g r f, (growInc_closed g r f).trans_le (pipe_le _ f)⟩

/-! ### The commands (R135 to R142, R144) -/

section
variable {op : Byte} {r : Row} (hr : rowOf op = some r) {arg : Word}
include hr

theorem illegalWord_of_format_BBB (hf : r.format = .BBB) (h : 2 ^ 24 ≤ arg.toNat) : IllegalWord (op ++ arg) :=
  illegalWord_of_reserved hr (by rwa [hf, ne_eq, and_BBB, Nat.not_lt])

theorem illegalWord_of_format_H (hf : r.format = .H) (h : 2 ^ 16 ≤ arg.toNat) : IllegalWord (op ++ arg) :=
  illegalWord_of_reserved hr (by rwa [hf, ne_eq, and_H, Nat.not_lt])

end

theorem argH_eq_setWidth (x : BitVec 16) : argH x = x.setWidth 32 :=
  (BitVec.setWidth_eq_append (by decide)).symm

/-- Settles O42: the command answers the pipe of its operands, and only `arg[31:24]` is reserved. -/
theorem fxGincRunsThePipe : Obligations.FxGincRunsThePipe := by
  intro g r f s hg
  refine ⟨decode_encode (.fxGinc g r f), fun _ h => illegalWord_of_format_BBB rfl rfl h, ?_⟩
  rw [exec_fxGinc hg, respond_setWidth, growInc_toNat]

/-- Settles O38: saturation is `min` above and the subtraction of naturals below. -/
theorem fxAddAndFxSubSaturate : Obligations.FxAddAndFxSubSaturate := by
  intro x y s hg
  have hsub : (if y.toNat ≤ x.toNat then x.toNat - y.toNat else 0) = x.toNat - y.toNat := by
    split <;> omega
  refine ⟨decode_encode (.fxAdd x y), ?_, decode_encode (.fxSub x y), ?_⟩
  · rw [exec_fxAdd hg, respond_setWidth, satAdd88_toNat]
  · rw [exec_fxSub hg, respond_setWidth, satSub88_toNat, hsub]

/-- Settles O39: the product is taken on naturals, so it is floored and saturated once. -/
theorem fxMulFloorsAndSaturates : Obligations.FxMulFloorsAndSaturates := by
  intro x y s hg
  refine ⟨decode_encode (.fxMul x y), ?_⟩
  rw [exec_fxMul hg, respond_setWidth, mul88_toNat]

/-- Settles O40: a shift by one is the floored half. -/
theorem fxHalfFloors : Obligations.FxHalfFloors := by
  intro x s hg
  refine ⟨?_, fun _ h => illegalWord_of_format_H rfl rfl h, ?_⟩
  · rw [← argH_eq_setWidth]
    exact decode_encode (.fxHalf x)
  · rw [exec_fxHalf hg, respond_setWidth, half88_toNat]

/-- Settles O41: each conversion is a shift that loses no bit, but `FX_TRUNC`, which drops the fraction. -/
theorem fxConversionsKeepTheValue : Obligations.FxConversionsKeepTheValue := by
  intro b x s hg
  rw [← argB_eq_setWidth, ← argH_eq_setWidth]
  refine ⟨decode_encode (.fxW44 b), decode_encode (.fxW17 b), decode_encode (.fxTrunc x),
    decode_encode (.fxFromint b),
    fun _ h => ⟨illegalWord_of_format_B rfl rfl h, illegalWord_of_format_B rfl rfl h,
      illegalWord_of_format_B rfl rfl h⟩,
    fun _ h => illegalWord_of_format_H rfl rfl h, ?_, ?_, ?_, ?_⟩
  · rw [exec_fxW44 hg, respond_setWidth, widen44_toNat]
  · rw [exec_fxW17 hg, respond_setWidth, widen17_toNat]
  · rw [exec_fxTrunc hg, respond_setWidth, BitVec.toNat_setWidth_of_le (by decide), trunc88_toNat]
  · rw [exec_fxFromint hg, respond_setWidth, fromInt_toNat]

end Sys2Proof.Machine

/-! ## The growth ranges (42_growth.md R161 to R166) -/

namespace Sys2Proof.Machine

/-- A missing band at one of the levels summed passes through (R161). -/
theorem sumIncr_of_table {c : Cfg} {j l : Nat} {a : Attr} (hj : j < c.njobs)
    (h : ∃ t, 2 ≤ t ∧ t ≤ l ∧ increment c j t a = .error (.raised .table)) :
    sumIncr c j l a = .error (.raised .table) := by
  obtain ⟨t, h2, hl, ht⟩ := h
  have hfold := foldGrowth_of_table c hj a (List.range' 2 (l - 1)) 0#16
    ⟨t, List.mem_range'_1.mpr ⟨h2, by omega⟩, ht⟩
  rw [sumIncr, accumulate, hfold]
  rfl

/-- Settles O46: the accumulator's fold is a saturating sum; it ends early exactly at a missing band. -/
theorem sumOfIncrementsTruncatesOnce : Obligations.SumOfIncrementsTruncatesOnce := by
  intro c j l a hj
  refine ⟨fun g hg => ?_, sumIncr_of_table hj⟩
  obtain ⟨b, hb, hsum⟩ := sumIncr_eq c j l a g fun i hi => hg (2 + i) (by omega) (by omega)
  have hlevels : ∑ t ∈ Finset.Icc 2 l, 16 * (g t).toNat = ∑ i ∈ Finset.range (l - 1), 16 * (g (2 + i)).toNat := by
    rw [← Finset.Ico_add_one_right_eq_Icc, Finset.sum_Ico_eq_sum_range, Nat.add_sub_add_right l 1 1]
  exact ⟨b, hb, by rw [hlevels, hsum]⟩

section
variable {c : Cfg} {j l : Nat} {a : Attr} (hj : j < c.njobs)
include hj

/-- The centre of a range (R162). -/
theorem rangeAttr_standard {b : Byte} (h : sumIncr c j l a = .ok b) :
    ∃ r, rangeAttr c j l a = .ok r ∧ r.standard.toNat = min 255 ((c.init j a).toNat + b.toNat) := by
  refine ⟨_, rangeAttr_of_sum c hj h, ?_⟩
  rw [BitVec.toNat_ofNat]
  omega

/-- A range that answers has summed its increments. -/
theorem rangeAttr_eq_ok {r : AttrRange} (h : rangeAttr c j l a = .ok r) :
    ∃ b : Byte, r.standard.toNat = min 255 ((c.init j a).toNat + b.toNat) := by
  rcases sumIncr_ok_or_table c hj l a with ⟨b, hb⟩ | htable
  · obtain ⟨r', hr', hstd⟩ := rangeAttr_standard hj hb
    cases h.symm.trans hr'
    exact ⟨b, hstd⟩
  · cases h.symm.trans (rangeAttr_of_table c hj htable)

/-- At level 1 there is nothing to sum: no band is read. -/
theorem rangeAttr_level_one : ∃ r, rangeAttr c j 1 a = .ok r ∧ r.standard = c.init j a := by
  obtain ⟨r, hr, hstd⟩ := rangeAttr_standard (l := 1) (a := a) (b := 0#8) hj rfl
  have hinit := (c.init j a).isLt
  refine ⟨r, hr, BitVec.eq_of_toNat_eq (hstd.trans ?_)⟩
  rw [BitVec.toNat_ofNat]
  omega

end

/-- `LF` is at least 50 and at most 70 percent (R160). -/
theorem lowerFactor_bounds (a : Attr) : 50 ≤ lowerFactor a ∧ lowerFactor a ≤ 70 := by cases a <;> decide

/-- Settles O47: the centre from the summed increments, the two limits from the centre. -/
theorem rangeFormulas : Obligations.RangeFormulas := by
  intro c j l a hj
  refine ⟨rangeAttr_of_table c hj, rangeAttr_level_one hj, fun b hb => ?_⟩
  obtain ⟨r, hr, hstd⟩ := rangeAttr_standard hj hb
  obtain ⟨hupper, hlower⟩ := rangeAttr_limits hr
  have hproduct : r.standard.toNat * lowerFactor a ≤ 255 * 70 :=
    Nat.mul_le_mul (Nat.le_of_lt_succ r.standard.isLt) (lowerFactor_bounds a).2
  refine ⟨r, hr, hstd, hupper, hlower.trans ?_, by omega, by omega⟩
  cases a <;> rfl

/-- At most 70 percent of a value, plus one, exceeds the value only where it is 0 (C3). -/
theorem lower_le_standard_iff {c : Cfg} {j l : Nat} {a : Attr} {r : AttrRange} (h : rangeAttr c j l a = .ok r) :
    r.lower.toNat ≤ r.standard.toNat ↔ 1 ≤ r.standard.toNat := by
  obtain ⟨-, hlower⟩ := rangeAttr_limits h
  have hproduct : r.standard.toNat * lowerFactor a ≤ r.standard.toNat * 70 :=
    Nat.mul_le_mul_left _ (lowerFactor_bounds a).2
  omega

/-- Settles O48: `upper` adds to `standard` and is capped where a byte is; `standard` is not below the initial value. -/
theorem rangeInvariantNeedsAPositiveStandard : Obligations.RangeInvariantNeedsAPositiveStandard := by
  intro c j l a r hj hr
  obtain ⟨hupper, -⟩ := rangeAttr_limits hr
  obtain ⟨b, hstd⟩ := rangeAttr_eq_ok hj hr
  have hbyte := r.standard.isLt
  exact ⟨by omega, lower_le_standard_iff hr, fun hinit => (lower_le_standard_iff hr).mpr (by omega)⟩

end Sys2Proof.Machine

/-! ## `RANGE` (42_growth.md R175) -/

namespace Sys2Proof.Machine

theorem attrOfField_of_index {b : Byte} {a : Attr} (h : b.toNat = attrIndex a) : attrOfField b = some a := by
  unfold attrOfField
  rw [h]
  cases a <;> rfl

/-- A legal field is the index of one of the five attributes (R160). -/
theorem exists_attrIndex {n : Nat} (h : n ≤ 4) : ∃ a, n = attrIndex a := by
  interval_cases n
  exacts [⟨.power, rfl⟩, ⟨.speed, rfl⟩, ⟨.vitality, rfl⟩, ⟨.intelligence, rfl⟩, ⟨.luck, rfl⟩]

/-- The three bytes of the answer do not overlap. -/
theorem respond_packRange (s : State) (r : AttrRange) :
    s.respond (packRange r) = s.afterOk (65536 * r.upper.toNat + 256 * r.standard.toNat + r.lower.toNat) := by
  have hpack : (packRange r).toNat = 65536 * r.upper.toNat + 256 * r.standard.toNat + r.lower.toNat := by
    simp only [packRange, append_toNat, BitVec.toNat_ofNat]
    omega
  rw [← hpack, ← respond_setWidth, BitVec.setWidth_eq]

section
variable {s : State} {level attr : Byte} {a : Attr} (hg : s.Good)
include hg

theorem exec_range_illegal (hattr : 4 < attr.toNat) : exec (.range level attr) s = .next (s.afterFault 4#8) := by
  rw [exec_range hg, attrOfField_eq_none hattr]
  exact congrArg _ (raiseFault_of_good s .illegal hg)

theorem exec_range_level (hattr : attr.toNat = attrIndex a) (hlevel : level.toNat < 1 ∨ 99 < level.toNat) :
    exec (.range level attr) s = .next (s.afterFault 2#8) := by
  simp only [exec_range hg, attrOfField_of_index hattr, if_pos hlevel]
  exact congrArg _ (raiseFault_of_good s .level hg)

section
variable (hattr : attr.toNat = attrIndex a) (h1 : 1 ≤ level.toNat) (h99 : level.toNat ≤ 99)
include hattr h1 h99

theorem exec_range_ok {r : AttrRange} (hr : rangeAttr s.cfg s.job.toNat level.toNat a = .ok r) :
    exec (.range level attr) s =
      .next (s.afterOk (65536 * r.upper.toNat + 256 * r.standard.toNat + r.lower.toNat)) := by
  have hlegal : ¬ (level.toNat < 1 ∨ 99 < level.toNat) := by omega
  simp only [exec_range hg, attrOfField_of_index hattr, if_neg hlegal, hr]
  exact congrArg _ (respond_packRange s r)

theorem exec_range_table (hr : rangeAttr s.cfg s.job.toNat level.toNat a = .error (.raised .table)) :
    exec (.range level attr) s = .next (s.afterFault 3#8) := by
  have hlegal : ¬ (level.toNat < 1 ∨ 99 < level.toNat) := by omega
  simp only [exec_range hg, attrOfField_of_index hattr, if_neg hlegal, hr]
  exact congrArg _ (raiseFault_of_good s .table hg)

end
end

/-- Settles O49: one clause for each check, in their order; a range that does not answer is a missing band. -/
theorem rangeAnswersThePackedRange : Obligations.RangeAnswersThePackedRange := by
  intro s level attr hg hj
  refine ⟨decode_encode (.range level attr), fun _ h => illegalWord_of_format_BB rfl rfl h, exec_range_illegal hg,
    fun hattr hlevel => ?_, fun a hattr h1 h99 => ⟨fun _ => exec_range_ok hg hattr h1 h99, fun hnone => ?_,
      fun hone => hone ▸ rangeAttr_level_one hj, fun hc => ?_⟩⟩
  · obtain ⟨a, ha⟩ := exists_attrIndex hattr
    exact exec_range_level hg ha hlevel
  · rcases rangeAttr_ok_or_table s.cfg hj level.toNat a with ⟨r, hr⟩ | htable
    · exact absurd hr (hnone r)
    · exact exec_range_table hg hattr h1 h99 htable
  · obtain ⟨r, hr⟩ := rangeAttr_ok_of_covers s.cfg hj hc h99 a
    exact ⟨r, hr, exec_range_ok hg hattr h1 h99 hr⟩

end Sys2Proof.Machine

/-! ## Growth ahead of the curve (42_growth.md R168) -/

namespace Sys2Proof.Machine

section
variable {c : Cfg} (cur : Fix88) (up : Byte)

theorem ahead_full_iff (h : c.aheadCmp = .full) : ahead c cur up = true ↔ 256 * up.toNat < cur.toNat := by
  simp only [ahead, h, decide_eq_true_eq, fromInt_toNat]

theorem ahead_floor_iff (h : c.aheadCmp = .floor) : ahead c cur up = true ↔ up.toNat < cur.toNat / 256 := by
  simp only [ahead, h, decide_eq_true_eq, trunc88_toNat]

end

theorem aheadInc_eq (c : Cfg) (rng : Word) :
    aheadInc c rng = ((if (rngNext rng).getLsbD 0 then c.aheadUnit else 0#16), rngNext rng) := by
  refine Prod.ext (BitVec.eq_of_toNat_eq ?_) (aheadInc_state c rng)
  rw [aheadInc_toNat, BitVec.getLsbD, Nat.testBit_zero]
  rcases Nat.mod_two_eq_zero_or_one (rngNext rng).toNat with hbit | hbit <;> simp [hbit]

/-- Settles O50: the two tests by the parameter; the increment is one bit of the new state, times the unit. -/
theorem aheadTestFollowsTheParameter : Obligations.AheadTestFollowsTheParameter := fun c cur up rng =>
  ⟨ahead_full_iff cur up, ahead_floor_iff cur up, aheadInc_eq c rng, rfl, rfl⟩

end Sys2Proof.Machine

/-! ## `LVLUP` (42_growth.md R167 to R172) -/

namespace Sys2Proof.Machine

section
variable {s : State} (hs : s.Legal) (hg : s.Good)
include hs hg

/-- Where the ranges of the new level answer, so does the level-up, and `LVLUP` ends with it (R170). -/
theorem exec_lvlup_completes (hl : s.level.toNat < 99)
    (h : ∀ a, ∃ r, rangeAttr s.cfg s.job.toNat (s.level.toNat + 1) a = .ok r) :
    ∃ t, exec .lvlup s = .next t ∧ LevelUpTo s t := by
  obtain ⟨t, ht⟩ := levelUp_ok_of_ranges s hs.job_lt hs.pers_lt hs.level_ge h
  refine ⟨t, ?_, levelUpTo_of_ok hs hl ht⟩
  rw [exec_lvlup_run hg hl, ht]
  rfl

/-- An `LVLUP` that leaves the block good has completed a level-up. -/
theorem levelUpTo_of_exec {t : State} (h : exec .lvlup s = .next t) (ht : t.Good) : LevelUpTo s t := by
  rcases Nat.lt_or_ge s.level.toNat 99 with hl | hl
  · rw [exec_lvlup_run hg hl] at h
    rcases complete_next h with hu | ⟨c, -, rfl⟩
    · exact levelUpTo_of_ok hs hl hu
    · exact absurd ht (not_good_raiseFault _ c)
  · rw [exec_lvlup_level hg hl] at h
    cases h
    exact absurd ht (show 1#1 ≠ 0#1 by decide)

end

/-- Settles O51: bands that cover every level make every range answer. -/
theorem lvlupCompletes : Obligations.LvlupCompletes := by
  intro s hs hg hl h
  refine exec_lvlup_completes hs hg hl ?_
  rcases h with hc | hranges
  · exact rangeAttr_ok_of_covers s.cfg hs.job_lt hc (by omega)
  · exact hranges

/-- In a completed level-up each of the five has grown by a step of R167. -/
theorem LevelUpTo.growStep {s t : State} (h : LevelUpTo s t) (a : Attr) :
    ∃ x y, GrowStep s.cfg s.job.toNat s.pers.toNat (s.level.toNat + 1) a (s.attr a) x (t.attr a) y := by
  obtain ⟨r1, r2, r3, r4, hpow, hspd, hvit, hint, hluk⟩ := h.grown
  cases a with
  | power => exact ⟨_, _, hpow⟩
  | speed => exact ⟨_, _, hspd⟩
  | vitality => exact ⟨_, _, hvit⟩
  | intelligence => exact ⟨_, _, hint⟩
  | luck => exact ⟨_, _, hluk⟩

theorem LevelUpTo.range_ok {s t : State} (h : LevelUpTo s t) (a : Attr) :
    ∃ r, rangeAttr s.cfg s.job.toNat (s.level.toNat + 1) a = .ok r := by
  obtain ⟨_, _, r, hr, -⟩ := h.growStep a
  exact ⟨r, hr⟩

/-- A level-up that meets a range with a missing band raises `TABLE`. -/
theorem levelUp_of_no_range {s : State} (hs : s.Legal) (hl : s.level.toNat < 99) {a : Attr}
    (h : ∀ r, rangeAttr s.cfg s.job.toNat (s.level.toNat + 1) a ≠ .ok r) : levelUp s = .error (.raised .table) := by
  rcases levelUp_cases s hs.job_lt hs.pers_lt hl with ⟨t, -, hto⟩ | htable
  · obtain ⟨r, hr⟩ := hto.range_ok a
    exact absurd hr (h r)
  · exact htable

/-- Settles O52: a completed level-up has read all five ranges, so without one of them it is a late `TABLE`. -/
theorem lvlupFaults : Obligations.LvlupFaults := by
  intro s hs hg
  refine ⟨decode_encode .lvlup, fun _ h => illegalWord_of_format_N rfl rfl h,
    fun hl => exec_lvlup_level hg hl.ge, fun hl ⟨a, ha⟩ => ⟨s.leaveUnsaid.afterFault 3#8, ?_, rfl, rfl, rfl, rfl, rfl⟩⟩
  rw [exec_lvlup_run hg hl, levelUp_of_no_range hs hl ha]
  exact congrArg _ (raiseFault_of_good s.leaveUnsaid .table hg)

/-- Settles O54: each step of growth adds, and clamps up to the lower bound. -/
theorem lvlupNeverLowersAnAttribute : Obligations.LvlupNeverLowersAnAttribute := by
  intro s t hs hg h ht a
  have hto := levelUpTo_of_exec hs hg h ht
  obtain ⟨hcfg, -⟩ := hto.outside
  obtain ⟨_, _, hstep⟩ := hto.growStep a
  obtain ⟨hle, r, hr, hlower⟩ := hstep.bounds
  rw [hcfg, hto.job, hto.level, trunc88_toNat]
  exact ⟨hle, r, hr, by omega⟩

/-! ### The number of transitions (R171) -/

/-- The transitions of one step of growth: one ahead of the curve, sixteen elsewhere (R167). -/
def growthDraws (isAhead : Bool) : Nat := if isAhead then 1 else 16

theorem GrowStep.rng_eq {c : Cfg} {j p L : Nat} {a : Attr} {cur new : Fix88} {x y : Word} {r : AttrRange}
    (h : GrowStep c j p L a cur x new y) (hr : rangeAttr c j L a = .ok r) :
    y = rngNext^[growthDraws (ahead c cur r.upper)] x := by
  obtain ⟨r', hr', hgrown⟩ := h
  cases hr.symm.trans hr'
  rcases hgrown with ⟨hahead, hy, -⟩ | ⟨hahead, hy, -⟩ <;> rw [hahead, hy] <;> rfl

theorem sum_growthDraws (isAhead : Attr → Bool) (as : List Attr) :
    (as.map fun a => growthDraws (isAhead a)).sum =
      16 * (as.filter fun a => !isAhead a).length + (as.length - (as.filter fun a => !isAhead a).length) := by
  induction as with
  | nil => rfl
  | cons a as ih =>
    have hle := List.length_filter_le (fun a => !isAhead a) as
    rw [List.map_cons, List.sum_cons, ih, List.filter_cons]
    cases isAhead a <;> simp [growthDraws] <;> omega

/-- Settles O53: the draws of the five steps add up over the one generator; each is decided by the value before,
which no other step writes. -/
theorem lvlupTransitionCount : Obligations.LvlupTransitionCount := by
  intro s t hs hg h ht
  have hto := levelUpTo_of_exec hs hg h ht
  choose r hr using hto.range_ok
  refine ⟨fun a => (r a).upper, _, fun a => ⟨r a, hr a, rfl⟩, rfl, ?_⟩
  obtain ⟨r1, r2, r3, r4, hpow, hspd, hvit, hint, hluk⟩ := hto.grown
  rw [hluk.rng_eq (hr _), hint.rng_eq (hr _), hvit.rng_eq (hr _), hspd.rng_eq (hr _), hpow.rng_eq (hr _)]
  simp only [← Function.iterate_add_apply]
  have hsum := sum_growthDraws (fun a => ahead s.cfg (s.attr a) (r a).upper) attrOrder
  rw [show attrOrder.length = 5 from rfl] at hsum
  rw [← hsum]
  congr 1
  simp only [attrOrder, List.map_cons, List.map_nil, List.sum_cons, List.sum_nil, attr_power, attr_speed, attr_vitality,
    attr_intelligence, attr_luck]
  omega

end Sys2Proof.Machine

/-! ## `JOBCHG` and `PERSCHG` (42_growth.md R173, R174) -/

namespace Sys2Proof.Machine

/-- Settles O55: each halving is a shift by one. -/
theorem jobchgHalvesAndResets : Obligations.JobchgHalvesAndResets := by
  intro s j hg
  rw [← argB_eq_setWidth]
  refine ⟨decode_encode (.jobchg j), fun _ h => illegalWord_of_format_B rfl rfl h,
    fun hj => ⟨_, exec_jobchg_ok hg hj, rfl, half88_toNat s.maxhp, half88_toNat s.maxmp, fun a => ?_, rfl, rfl, rfl,
      rfl, rfl, rfl, rfl, rfl, rfl, rfl⟩,
    exec_jobchg_table hg⟩
  cases a <;> exact half88_toNat _

/-- Settles O56: the check of the record, then one assignment. -/
theorem perschgAssigns : Obligations.PerschgAssigns := by
  intro s p hg
  rw [← argB_eq_setWidth]
  exact ⟨decode_encode (.perschg p), fun _ h => illegalWord_of_format_B rfl rfl h, exec_perschg_ok hg,
    exec_perschg_table hg⟩

end Sys2Proof.Machine

/-! ## `CH_WR` and `CH_RD` (42_growth.md R176, R177) -/

namespace Sys2Proof.Machine

section
variable {op : Byte} {r : Row} (hr : rowOf op = some r) {arg : Word}
include hr

theorem illegalWord_of_format_RV (hf : r.format = .RV) (h : 2 ^ 24 ≤ arg.toNat) : IllegalWord (op ++ arg) :=
  illegalWord_of_reserved hr (by rwa [hf, ne_eq, and_RV, Nat.not_lt])

theorem illegalWord_of_format_R (hf : r.format = .R) (h : 2 ^ 24 ≤ arg.toNat ∨ arg.toNat % 2 ^ 16 ≠ 0) :
    IllegalWord (op ++ arg) :=
  illegalWord_of_reserved hr (by rwa [hf, ne_eq, and_R, not_and_or, Nat.not_lt])

end

section
variable {s s' : State} {r : CReg} {val : BitVec 16} (hg : s.Good)
include hg

theorem exec_chWr_ok (h : s.writeReg r val = .ok s') :
    exec (.chWr (fieldOfReg r) val) s = .next (s'.afterOk 0) := by
  simp only [exec_chWr hg, regOfField_fieldOfReg, h]
  rfl

theorem exec_chWr_refused {c : Cause} (h : s.writeReg r val = .error c) :
    exec (.chWr (fieldOfReg r) val) s = .next (s.afterFault (causeCode c)) := by
  simp only [exec_chWr hg, regOfField_fieldOfReg, h, raiseFault_of_good s c hg]

theorem exec_chWr_illegal {reg : Byte} (h : reg.toNat = 6 ∨ reg.toNat = 7 ∨ 13 ≤ reg.toNat) :
    exec (.chWr reg val) s = .next (s.afterFault 4#8) := by
  simp only [exec_chWr hg, regOfField_eq_none h, raiseFault_of_good s _ hg, causeCode]

theorem exec_chRd_of_readReg {k : Nat} {x : BitVec k} (h : s.readReg r = x.setWidth 32) :
    exec (.chRd (fieldOfReg r)) s = .next (s.afterOk x.toNat) := by
  simp only [exec_chRd hg, regOfField_fieldOfReg, h, respond_setWidth]

theorem exec_chRd_illegal {reg : Byte} (h : reg.toNat = 6 ∨ reg.toNat = 7 ∨ 13 ≤ reg.toNat) :
    exec (.chRd reg) s = .next (s.afterFault 4#8) := by
  simp only [exec_chRd hg, regOfField_eq_none h, raiseFault_of_good s _ hg, causeCode]

end

/-- Settles O57: one clause for each register's check; a value that passes is written whole. -/
theorem chWrChecksAndWrites : Obligations.ChWrChecksAndWrites := by
  intro s val hg
  simp only [BitVec.ofNat_toNat]
  exact
    ⟨fun reg => decode_encode (.chWr reg val), fun _ h => illegalWord_of_format_RV rfl rfl h,
      fun h1 h99 => exec_chWr_ok hg (writeReg_level h1 h99),
      fun h => exec_chWr_refused hg (r := .level) (if_pos h),
      exec_chWr_ok hg writeReg_maxhp, exec_chWr_ok hg writeReg_maxmp,
      fun h => exec_chWr_ok hg (writeReg_sex h), fun h => exec_chWr_refused hg (r := .sex) (if_pos h),
      fun h => exec_chWr_ok hg (writeReg_pers h), fun h => exec_chWr_refused hg (r := .pers) (if_pos h),
      fun h => exec_chWr_ok hg (writeReg_job h), fun h => exec_chWr_refused hg (r := .job) (if_pos h),
      exec_chWr_ok hg (writeReg_attr .power), exec_chWr_ok hg (writeReg_attr .speed),
      exec_chWr_ok hg (writeReg_attr .vitality), exec_chWr_ok hg (writeReg_attr .intelligence),
      exec_chWr_ok hg (writeReg_attr .luck), fun _ h => exec_chWr_illegal hg h⟩

/-- Settles O58: the answer is the register, zero-extended. -/
theorem chRdAnswersTheRegister : Obligations.ChRdAnswersTheRegister := by
  intro s hg
  exact
    ⟨fun reg => decode_encode (.chRd reg), fun _ h => illegalWord_of_format_R rfl rfl h,
      exec_chRd_of_readReg hg (r := .level) rfl, exec_chRd_of_readReg hg (r := .maxhp) rfl,
      exec_chRd_of_readReg hg (r := .maxmp) rfl, exec_chRd_of_readReg hg (r := .sex) rfl,
      exec_chRd_of_readReg hg (r := .pers) rfl, exec_chRd_of_readReg hg (r := .job) rfl,
      exec_chRd_of_readReg hg (r := .attr .power) rfl, exec_chRd_of_readReg hg (r := .attr .speed) rfl,
      exec_chRd_of_readReg hg (r := .attr .vitality) rfl, exec_chRd_of_readReg hg (r := .attr .intelligence) rfl,
      exec_chRd_of_readReg hg (r := .attr .luck) rfl, fun _ h => exec_chRd_illegal hg h⟩

/-! ### Reading back what was written -/

/-- A value that fits its register keeps all its bits there. -/
theorem setWidth_setWidth_of_lt {val : BitVec 16} {k : Nat} (h : val.toNat < 2 ^ k) :
    (val.setWidth k).setWidth 32 = val.setWidth 32 :=
  BitVec.eq_of_toNat_eq (by rw [BitVec.toNat_setWidth, setWidth_toNat_of_lt h, BitVec.toNat_setWidth])

/-- A write that passes its check leaves the value in the register: the values that pass fit it, as identifiers do
because at most 256 have a record (R8). -/
theorem readReg_writeReg_same {s s' : State} {r : CReg} {val : BitVec 16} (hc : s.cfg.Legal)
    (h : s.writeReg r val = .ok s') : s'.readReg r = val.setWidth 32 := by
  have hpers := hc.npers_le
  have hjobs := hc.njobs_le
  cases r with
  | level | sex | pers | job =>
    obtain ⟨hv, rfl⟩ := of_checked_eq_ok h
    exact setWidth_setWidth_of_lt (by omega)
  | maxhp | maxmp => cases h; rfl
  | attr a => cases h; exact congrArg (BitVec.setWidth 32) (setAttr_attr_self s a val)

theorem readReg_respond (s : State) (d : Word) (r : CReg) : (s.respond d).readReg r = s.readReg r := by
  cases r with
  | attr a => exact congrArg (BitVec.setWidth 32) (respond_attr s d a)
  | level | maxhp | maxmp | sex | pers | job => rfl

/-- A `CH_WR` that leaves the block good has written the register its field names. -/
theorem writeReg_of_exec_chWr {s t : State} {reg : Byte} {val : BitVec 16} (hg : s.Good)
    (h : exec (.chWr reg val) s = .next t) (ht : t.Good) :
    ∃ r s', regOfField reg = some r ∧ s.writeReg r val = .ok s' ∧ t = s'.respond 0#32 := by
  rw [exec_chWr hg] at h
  split at h
  next => cases h; exact absurd ht (not_good_raiseFault s _)
  next r hr =>
    split at h
    next s' hw => cases h; exact ⟨r, s', hr, hw, rfl⟩
    next => cases h; exact absurd ht (not_good_raiseFault s _)

/-- Settles O59: the write leaves the value in the register, and answering leaves the register. -/
theorem chRdReadsWhatChWrWrote : Obligations.ChRdReadsWhatChWrWrote := by
  intro s t reg val hg hc h ht
  obtain ⟨r, s', hreg, hw, rfl⟩ := writeReg_of_exec_chWr hg h ht
  simp only [exec_chRd ht, hreg, readReg_respond, readReg_writeReg_same hc hw, respond_setWidth]

end Sys2Proof.Machine

/-! ## `STATUS` (43_system.md R200, 10_state.md R31) -/

namespace Sys2Proof.Machine

/-- FAULT in bit 0, CAUSE in bits 15:8, zeros between and above (R31). -/
theorem statusWord_toNat (s : State) : s.statusWord.toNat = 256 * s.cause.toNat + s.fault.toNat := by
  rw [State.statusWord, append_toNat, append_toNat, append_toNat]
  simp only [BitVec.toNat_ofNat]
  omega

/-- In the FAULT state an illegal word is refused like every word but `STATUS` (R214). -/
theorem IllegalWord.step_of_fault {w : CommandWord} (h : IllegalWord w) {s : State} (hs : s.fault = 1#1) :
    step (s.present w) = .next s.refuse := by
  obtain ⟨⟨e, he⟩, -⟩ := h
  rw [step_present, runWord_of_error he, illegalCommand_of_fault hs]

/-- Settles O26: the answer is the STATUS word; every operand bit of `STATUS` is reserved. -/
theorem statusAnswersTheLatch : Obligations.StatusAnswersTheLatch := by
  refine ⟨decode_encode .status, fun arg harg => ?_, fun s => ?_⟩
  · have hillegal : IllegalWord (0x01#8 ++ arg) := illegalWord_of_format_N rfl rfl harg
    exact ⟨hillegal, fun s hs => hillegal.step_of_fault hs⟩
  · rw [exec_status, ← BitVec.setWidth_eq s.statusWord, respond_setWidth, statusWord_toNat]

end Sys2Proof.Machine

/-! ## Faults (60_exceptions.md R212 to R217) -/

namespace Sys2Proof.Machine

/-! ### The FAULT state (R214, R215, R217) -/

/-- The word of `STATUS` is the only one that decodes to it (R84). -/
theorem decode_eq_status_iff {w : CommandWord} : decode w = .ok .status ↔ w = 0x0100000000#40 := by
  refine ⟨fun h => (encodeOfDecodeIsTheWord w .status h).symm, ?_⟩
  rintro rfl
  exact decode_encode .status

/-- What a block in the FAULT state answers a command word: it is a function of the recorded cause (R214). -/
def faultResponse (cause : BitVec 8) (w : CommandWord) : Response :=
  if w = 0x0100000000#40 then ⟨.ok, BitVec.ofNat 32 (256 * cause.toNat + 1)⟩ else ⟨.fault, cause.setWidth 32⟩

section
variable {s : State} (h : s.fault = 1#1)
include h

theorem exec_status_of_fault : exec .status s = .next (s.afterOk (256 * s.cause.toNat + 1)) := by
  obtain ⟨-, -, hstatus⟩ := statusAnswersTheLatch
  rw [hstatus, h]
  rfl

/-- A word that is not `STATUS` is refused, whether or not it decodes. -/
theorem runWord_refused {w : CommandWord} (hw : w ≠ 0x0100000000#40) : runWord w s = .next s.refuse := by
  cases hd : decode w with
  | error e => rw [runWord_of_error hd, illegalCommand_of_fault h]
  | ok i =>
    have hi : i ≠ .status := fun hi => hw (decode_eq_status_iff.mp (hi ▸ hd))
    rw [runWord_of_ok hd, exec_of_fault hi h]

/-- In the FAULT state a command word changes the response and nothing else. -/
theorem step_present_of_fault (w : CommandWord) :
    step (s.present w) = .next { s with resp := some (faultResponse s.cause w) } := by
  rw [step_present, faultResponse]
  split
  next hw => rw [runWord_of_ok (decode_eq_status_iff.mpr hw), exec_status_of_fault h]; rfl
  next hw => rw [runWord_refused h hw]; rfl

end

/-- A list of command words leaves a block in the FAULT state as it was, but for the response. -/
theorem runWords_of_fault (ws : List CommandWord) {s : State} (h : s.fault = 1#1) :
    ∃ r, runWords ws s = .next { s with resp := r } := by
  induction ws generalizing s with
  | nil => exact ⟨s.resp, rfl⟩
  | cons w ws ih =>
    obtain ⟨r, hr⟩ := ih (s := { s with resp := some (faultResponse s.cause w) }) h
    exact ⟨r, by simp only [runWords, step_present_of_fault h, hr]⟩

/-- The responses of a block in the FAULT state are a function of its cause and the words. -/
theorem responses_of_fault (ws : List CommandWord) {s : State} (h : s.fault = 1#1) :
    responses ws s = ws.map fun w => some (faultResponse s.cause w) := by
  induction ws generalizing s with
  | nil => rfl
  | cons w ws ih =>
    have hrest := ih (s := { s with resp := some (faultResponse s.cause w) }) h
    simp only [responses, step_present_of_fault h, hrest, List.map_cons]

/-- Settles O22: the responses of either block are the same function of the one cause. -/
theorem faultStateHidesTheCharacter : Obligations.FaultStateHidesTheCharacter := by
  intro ws s t hs ht hcause
  rw [responses_of_fault ws hs, responses_of_fault ws ht, hcause]

/-- Settles O20: fault entry by the state of the latch, a command word by whether it is `STATUS`. -/
theorem faultEntryAndTheFaultState : Obligations.FaultEntryAndTheFaultState := by
  refine fun s => ⟨fun c h => raiseFault_of_good s c h, fun c h => raiseFault_of_fault s c h, fun w h => ?_⟩
  rw [step_present_of_fault h, faultResponse]
  split <;> rfl

/-- Settles O21: only the response has changed after any list of words. -/
theorem faultStateIsAbsorbing : Obligations.FaultStateIsAbsorbing := by
  intro ws s h
  obtain ⟨r, hr⟩ := runWords_of_fault ws h
  exact ⟨_, hr, h, rfl, ⟨rfl, rfl, rfl, rfl, rfl, rfl, rfl, fun a => by cases a <;> rfl⟩, rfl, rfl, rfl⟩

/-! ### What a computation of the growth engine can end in -/

/-- The computation answers a value with `P`, or stops; the only fault it raises is `TABLE`. -/
def TableOr {α : Type} (P : α → Prop) : Except Abandon α → Prop
  | .ok a => P a
  | .error (.raised c) => c = .table
  | .error .absentAddress => True

theorem TableOr.bind {α β : Type} {P : α → Prop} {Q : β → Prop} {x : Except Abandon α} {f : α → Except Abandon β}
    (hx : TableOr P x) (hf : ∀ a, P a → TableOr Q (f a)) : TableOr Q (x >>= f) := by
  rcases x with (c | _) | a
  · exact hx
  · trivial
  · exact hf a hx

/-- A fold keeps what each of its steps keeps. -/
theorem TableOr.foldlM {α β : Type} {P : β → Prop} {f : β → α → Except Abandon β}
    (hf : ∀ b a, P b → TableOr P (f b a)) (as : List α) {b : β} (hb : P b) : TableOr P (as.foldlM f b) := by
  induction as generalizing b with
  | nil => exact hb
  | cons a as ih =>
    rw [List.foldlM_cons]
    exact (hf b a hb).bind fun b' hb' => ih hb'

theorem memRead_tableOr (c : Cfg) (sp : Space) (addr : Nat) : TableOr (fun _ => True) (memRead c sp addr) := by
  rw [memRead]
  split <;> trivial

theorem scanBands_tableOr (c : Cfg) (j l : Nat) (a : Attr) (ks : List Nat) :
    TableOr (fun _ => True) (scanBands c j l a ks) := by
  induction ks with
  | nil => rfl
  | cons k ks ih =>
    refine (memRead_tableOr c _ _).bind fun b _ => ?_
    split
    · rfl
    · split
      · exact memRead_tableOr c _ _
      · exact ih

theorem increment_tableOr (c : Cfg) (j l : Nat) (a : Attr) : TableOr (fun _ => True) (increment c j l a) :=
  scanBands_tableOr c j l a _

theorem accumulate_tableOr (c : Cfg) (j l : Nat) (a : Attr) : TableOr (fun _ => True) (accumulate c j l a) := by
  refine TableOr.foldlM (fun _ t _ => ?_) _ trivial
  exact (increment_tableOr c j t a).bind fun _ _ => trivial

theorem sumIncr_tableOr (c : Cfg) (j l : Nat) (a : Attr) : TableOr (fun _ => True) (sumIncr c j l a) :=
  (accumulate_tableOr c j l a).bind fun _ _ => trivial

theorem standard_tableOr (c : Cfg) (j l : Nat) (a : Attr) : TableOr (fun _ => True) (standard c j l a) :=
  (memRead_tableOr c _ _).bind fun _ _ => (sumIncr_tableOr c j l a).bind fun _ _ => trivial

theorem rangeAttr_tableOr (c : Cfg) (j l : Nat) (a : Attr) : TableOr (fun _ => True) (rangeAttr c j l a) :=
  (standard_tableOr c j l a).bind fun _ _ => trivial

/-- The answer of `RANGE` (R175). -/
theorem respondRange_tableOr (s : State) (l : Nat) (a : Attr) :
    TableOr (fun t => t.fault = s.fault)
      (rangeAttr s.cfg s.job.toNat l a >>= fun r => pure (s.respond (packRange r))) :=
  (rangeAttr_tableOr s.cfg _ l a).bind fun r _ => respond_fault s (packRange r)

/-- The mask of the level-up's draw is legal, so its draw raises nothing. -/
theorem normalInc_tableOr (c : Cfg) (job pers L : Nat) (a : Attr) (rng : Word) :
    TableOr (fun _ => True) (normalInc c job pers L a rng) := by
  rw [normalInc, randMsum_of_ok levelUpMask_ok]
  exact (increment_tableOr c job L a).bind fun _ _ => (memRead_tableOr c _ _).bind fun _ _ => trivial

theorem attrInc_tableOr (c : Cfg) (job pers L : Nat) (a : Attr) (cur : Fix88) (up : Byte) (rng : Word) :
    TableOr (fun _ => True) (attrInc c job pers L a cur up rng) := by
  rw [attrInc]
  split
  · trivial
  · exact normalInc_tableOr c job pers L a rng

theorem growOne_tableOr (L : Nat) (s : State) (a : Attr) : TableOr (fun t => t.fault = s.fault) (growOne L s a) :=
  (rangeAttr_tableOr s.cfg _ L a).bind fun _ _ => (attrInc_tableOr s.cfg _ _ L a _ _ _).bind fun _ _ =>
    setAttr_fault s a _

theorem phys_tableOr (c : Cfg) (j : Nat) : TableOr (fun _ => True) (phys c j) :=
  (memRead_tableOr c _ _).bind fun _ _ => trivial

theorem derive_tableOr (s : State) : TableOr (fun t => t.fault = s.fault) (derive s) := by
  refine (phys_tableOr s.cfg _).bind fun ph _ => ?_
  show State.fault (if ph = 0#1 then _ else _) = s.fault
  split <;> rfl

/-- A level-up that answers has left FAULT alone; one that raises has met a missing band. -/
theorem levelUp_tableOr (s : State) : TableOr (fun t => t.fault = s.fault) (levelUp s) := by
  refine TableOr.bind (P := fun t => t.fault = s.fault) ?_ fun grown hgrown => ?_
  · exact TableOr.foldlM (fun b a hb => hb ▸ growOne_tableOr _ b a) attrOrder rfl
  · exact (derive_tableOr _).bind fun derived hderived => hderived.trans hgrown

/-! ### The faults of each command (R212, R215) -/

/-- Which decoded command can raise which cause (R212). -/
inductive MayRaise : Instr → Cause → Prop
  | badMask (o m : Byte) : MayRaise (.randM o m) .mask
  | writesLevel (v : BitVec 16) : MayRaise (.chWr 0#8 v) .level
  | levelsUpAt99 : MayRaise .lvlup .level
  | rangeLevel (l a : Byte) : MayRaise (.range l a) .level
  | writesSex (v : BitVec 16) : MayRaise (.chWr 3#8 v) .table
  | writesPers (v : BitVec 16) : MayRaise (.chWr 4#8 v) .table
  | writesJob (v : BitVec 16) : MayRaise (.chWr 5#8 v) .table
  | missingBand : MayRaise .lvlup .table
  | changesJob (j : Byte) : MayRaise (.jobchg j) .table
  | changesPers (p : Byte) : MayRaise (.perschg p) .table
  | rangeBand (l a : Byte) : MayRaise (.range l a) .table
  | selectsNothing {i : Instr} (h : i.wellFormed = false) : MayRaise i .illegal

/-- The state in which `i` can fault from a good `s`: STATUS and the response alone have changed, unless `LVLUP` met a
missing band and left RNG and the Character file unsaid (R215). -/
inductive Faults (s : State) : Instr → State → Prop
  | early {i : Instr} {c : Cause} (h : MayRaise i c) : Faults s i (s.afterFault (causeCode c))
  | late (hl : s.level.toNat < 99) : Faults s .lvlup (s.leaveUnsaid.afterFault (causeCode .table))

theorem regFieldLegal_of_none {reg : Byte} (h : regOfField reg = none) : regFieldLegal reg = false := by
  unfold regOfField at h
  split at h
  case h_12 =>
    simp only [imp_false] at *
    simp only [regFieldLegal, decide_eq_false_iff_not]
    omega
  all_goals cases h

theorem attrFieldLegal_of_none {b : Byte} (h : attrOfField b = none) : attrFieldLegal b = false := by
  unfold attrOfField at h
  split at h
  case h_6 =>
    simp only [imp_false] at *
    simp only [attrFieldLegal, decide_eq_false_iff_not]
    omega
  all_goals cases h

/-- A field that names a register is that register's number (R23). -/
theorem eq_fieldOfReg {reg : Byte} {r : CReg} (h : regOfField reg = some r) : reg = fieldOfReg r := by
  unfold regOfField at h
  split at h
  case h_12 => cases h
  all_goals cases h; exact BitVec.eq_of_toNat_eq ‹_›

/-- The check of a write that is not passed is `LEVEL`'s, or that of one of the three registers with few values. -/
theorem mayRaise_of_writeReg {s : State} {r : CReg} {v : BitVec 16} {c : Cause} (h : s.writeReg r v = .error c) :
    MayRaise (.chWr (fieldOfReg r) v) c := by
  cases r with
  | maxhp | maxmp | attr => cases h
  | level | sex | pers | job =>
    rw [State.writeReg] at h
    split at h <;> cases h
    constructor

section
variable {s t : State} (hg : s.fault = 0#1)
include hg

/-- A command that left FAULT alone has not faulted. -/
theorem faults_of_fault_eq {i : Instr} (h : t.fault = s.fault) (ht : t.fault = 1#1) : Faults s i t :=
  absurd (ht.symm.trans (h.trans hg)) (by decide)

theorem faults_of_raiseFault {i : Instr} {c : Cause} (h : MayRaise i c) : Faults s i (s.raiseFault c) :=
  raiseFault_of_good s c hg ▸ .early h

theorem faults_of_answerFix {i : Instr} {v : Fix88} (h : answerFix s v = .next t) (ht : t.fault = 1#1) :
    Faults s i t := by
  rw [answerFix, whenRunning_of_good hg] at h
  cases h
  exact faults_of_fault_eq hg rfl ht

theorem faults_of_randM {o m : Byte} (h : exec (.randM o m) s = .next t) (ht : t.fault = 1#1) :
    Faults s (.randM o m) t := by
  cases hm : maskOk m with
  | true => rw [exec_randM_ok hg o hm] at h; cases h; exact faults_of_fault_eq hg rfl ht
  | false => rw [exec_randM_bad hg o hm] at h; cases h; exact .early (.badMask o m)

theorem faults_of_chWr {reg : Byte} {v : BitVec 16} (h : exec (.chWr reg v) s = .next t) (ht : t.fault = 1#1) :
    Faults s (.chWr reg v) t := by
  rw [exec_chWr hg] at h
  split at h
  next hr => cases h; exact faults_of_raiseFault hg (.selectsNothing (regFieldLegal_of_none hr))
  next r hr =>
    split at h
    next s' hw =>
      cases h
      obtain ⟨-, hfault, -⟩ := writeReg_frame hw
      exact faults_of_fault_eq hg hfault ht
    next c hw =>
      cases h
      exact faults_of_raiseFault hg (eq_fieldOfReg hr ▸ mayRaise_of_writeReg hw)

theorem faults_of_chRd {reg : Byte} (h : exec (.chRd reg) s = .next t) (ht : t.fault = 1#1) :
    Faults s (.chRd reg) t := by
  rw [exec_chRd hg] at h
  split at h
  next hr => cases h; exact faults_of_raiseFault hg (.selectsNothing (regFieldLegal_of_none hr))
  next => cases h; exact faults_of_fault_eq hg rfl ht

theorem faults_of_lvlup (h : exec .lvlup s = .next t) (ht : t.fault = 1#1) : Faults s .lvlup t := by
  rcases Nat.lt_or_ge s.level.toNat 99 with hl | hl
  · rw [exec_lvlup_run hg hl] at h
    have hends := levelUp_tableOr s
    rcases complete_next h with hu | ⟨c, hu, rfl⟩ <;> rw [hu] at hends
    · exact faults_of_fault_eq hg hends ht
    · obtain rfl : c = .table := hends
      exact raiseFault_of_good s.leaveUnsaid .table hg ▸ .late hl
  · rw [exec_lvlup_level hg hl] at h
    cases h
    exact .early .levelsUpAt99

theorem faults_of_jobchg {j : Byte} (h : exec (.jobchg j) s = .next t) (ht : t.fault = 1#1) :
    Faults s (.jobchg j) t := by
  rcases Nat.lt_or_ge j.toNat s.cfg.njobs with hj | hj
  · rw [exec_jobchg_ok hg hj] at h; cases h; exact faults_of_fault_eq hg rfl ht
  · rw [exec_jobchg_table hg hj] at h; cases h; exact .early (.changesJob j)

theorem faults_of_perschg {p : Byte} (h : exec (.perschg p) s = .next t) (ht : t.fault = 1#1) :
    Faults s (.perschg p) t := by
  rcases Nat.lt_or_ge p.toNat s.cfg.npers with hp | hp
  · rw [exec_perschg_ok hg hp] at h; cases h; exact faults_of_fault_eq hg rfl ht
  · rw [exec_perschg_table hg hp] at h; cases h; exact .early (.changesPers p)

theorem faults_of_range {l b : Byte} (h : exec (.range l b) s = .next t) (ht : t.fault = 1#1) :
    Faults s (.range l b) t := by
  rw [exec_range hg] at h
  split at h
  next hb => cases h; exact faults_of_raiseFault hg (.selectsNothing (attrFieldLegal_of_none hb))
  next a _ =>
    split at h
    next => cases h; exact faults_of_raiseFault hg (.rangeLevel l b)
    next =>
      have hends := respondRange_tableOr s l.toNat a
      rcases complete_next h with hr | ⟨c, hr, rfl⟩ <;> rw [hr] at hends
      · exact faults_of_fault_eq hg hends ht
      · obtain rfl : c = .table := hends
        exact faults_of_raiseFault hg (.rangeBand l b)

/-- How a command that faults from a good state has done so. -/
theorem exec_faults {i : Instr} (h : exec i s = .next t) (ht : t.fault = 1#1) : Faults s i t := by
  cases i
  case status => cases h; exact faults_of_fault_eq hg rfl ht
  case rngSeed v => rw [exec_rngSeed hg] at h; cases h; exact faults_of_fault_eq hg rfl ht
  case rngRead => rw [exec_rngRead hg] at h; cases h; exact faults_of_fault_eq hg rfl ht
  case randU => rw [exec_randU hg] at h; cases h; exact faults_of_fault_eq hg rfl ht
  case randS u => rw [exec_randS hg] at h; cases h; exact faults_of_fault_eq hg rfl ht
  case randM => exact faults_of_randM hg h ht
  case fxAdd | fxSub | fxMul | fxHalf | fxW44 | fxW17 | fxTrunc | fxFromint | fxGinc =>
    exact faults_of_answerFix hg h ht
  case chWr => exact faults_of_chWr hg h ht
  case chRd => exact faults_of_chRd hg h ht
  case lvlup => exact faults_of_lvlup hg h ht
  case jobchg => exact faults_of_jobchg hg h ht
  case perschg => exact faults_of_perschg hg h ht
  case range => exact faults_of_range hg h ht

end

/-- Settles O23: the only fault that is not raised first is the missing band of an `LVLUP` below level 99. -/
theorem faultsArePrecise : Obligations.FaultsArePrecise := by
  intro i s t hg h ht hlvlup
  cases exec_faults hg h ht with
  | early => rfl
  | late hl => exact absurd (hlvlup rfl) (by omega)

/-- The commands with a field that can select nothing (R92). -/
theorem selects_of_not_wellFormed {i : Instr} (h : i.wellFormed = false) :
    (∃ r v, i = .chWr r v) ∨ (∃ r, i = .chRd r) ∨ ∃ l a, i = .range l a := by
  cases i
  case chWr r v => exact .inl ⟨r, v, rfl⟩
  case chRd r => exact .inr (.inl ⟨r, rfl⟩)
  case range l a => exact .inr (.inr ⟨l, a, rfl⟩)
  all_goals cases h

/-- A command that faults has raised a cause it may raise, and STATUS holds its code. -/
theorem Faults.mayRaise {s t : State} {i : Instr} (h : Faults s i t) : ∃ c, t.cause = causeCode c ∧ MayRaise i c := by
  cases h with
  | early h => exact ⟨_, rfl, h⟩
  | late _ => exact ⟨_, rfl, .missingBand⟩

/-- Settles O24: the table of R212 row by row. -/
theorem causesByCommand : Obligations.CausesByCommand := by
  intro i s t hg h ht
  obtain ⟨c, hc, hraise⟩ := (exec_faults hg h ht).mayRaise
  cases hraise with
  | badMask o m => exact .inl ⟨hc, o, m, rfl⟩
  | writesLevel v => exact .inr (.inl ⟨hc, .inl ⟨v, rfl⟩⟩)
  | levelsUpAt99 => exact .inr (.inl ⟨hc, .inr (.inl rfl)⟩)
  | rangeLevel l a => exact .inr (.inl ⟨hc, .inr (.inr ⟨l, a, rfl⟩)⟩)
  | writesSex v => exact .inr (.inr (.inl ⟨hc, .inl ⟨v, .inl rfl⟩⟩))
  | writesPers v => exact .inr (.inr (.inl ⟨hc, .inl ⟨v, .inr (.inl rfl)⟩⟩))
  | writesJob v => exact .inr (.inr (.inl ⟨hc, .inl ⟨v, .inr (.inr rfl)⟩⟩))
  | missingBand => exact .inr (.inr (.inl ⟨hc, .inr (.inl rfl)⟩))
  | changesJob j => exact .inr (.inr (.inl ⟨hc, .inr (.inr (.inl ⟨j, rfl⟩))⟩))
  | changesPers p => exact .inr (.inr (.inl ⟨hc, .inr (.inr (.inr (.inl ⟨p, rfl⟩)))⟩))
  | rangeBand l a => exact .inr (.inr (.inl ⟨hc, .inr (.inr (.inr (.inr ⟨l, a, rfl⟩)))⟩))
  | selectsNothing hi => exact .inr (.inr (.inr ⟨hc, selects_of_not_wellFormed hi, hi⟩))

end Sys2Proof.Machine

/-! ## State 0 of the generator (70_reset_and_hazards.md R248, 40_bitops_rng.md R104) -/

namespace Sys2Proof.Machine

theorem rngNext_zero : rngNext 0#32 = 0#32 := by
  obtain ⟨-, -, hzero⟩ := transitionClosedForm
  exact hzero

theorem iterate_rngNext_zero (n : Nat) : rngNext^[n] 0#32 = 0#32 := Function.iterate_fixed rngNext_zero n

/-- A scaled draw of 0 is 0, whatever the scale (R108). -/
theorem randScaled_zero (upper : Byte) : (randScaled upper 0#32).1 = 0#8 :=
  BitVec.eq_of_toNat_eq (by simp [randScaled_toNat, rngNext_zero])

/-- Sixteen draws of 0 add nothing to the offset (R109). -/
theorem multinomialSum_zero (offset mask : Byte) : multinomialSum offset mask 0#32 = offset := by
  simp [multinomialSum, iterate_rngNext_zero]

/-- Settles O37: 0 is a fixed point of the transition, so every draw is 0 and loads the state that was there. -/
theorem stateZeroIsAbsorbing : Obligations.StateZeroIsAbsorbing := by
  refine ⟨iterate_rngNext_zero, fun s hg hzero => ?_⟩
  have hkeep : ({ s with rng := 0#32 } : State) = s := by rw [← hzero]
  refine ⟨?_, fun u => ?_, fun o m hm => ?_⟩
  · rw [exec_randU hg, hzero, rngNext_zero, hkeep, respond_setWidth]
    rfl
  · rw [exec_randS hg, hzero, rngNext_zero, hkeep, randScaled_zero, respond_setWidth]
    rfl
  · rw [exec_randM_ok hg o hm, hzero, iterate_rngNext_zero, hkeep, multinomialSum_zero, respond_setWidth]

end Sys2Proof.Machine

/-! ## Reset (70_reset_and_hazards.md R240, R241) -/

namespace Sys2Proof.Machine

@[simp] theorem resetWith_attr (c : Cfg) (a : Attr) : (State.resetWith c).attr a = 0#16 := by cases a <;> rfl

@[simp] theorem applyReset_attr (s : State) (a : Attr) : s.applyReset.attr a = 0#16 := by cases a <;> rfl

/-- No fault is recorded after reset, so STATUS is 0 (R31). -/
theorem statusWord_eq_zero {s : State} (hfault : s.fault = 0#1) (hcause : s.cause = 0#8) : s.statusWord = 0#32 := by
  rw [State.statusWord, hfault, hcause]
  rfl

/-- Settles O12: taking the reset leaves what is behind it, and `applyReset` overwrites the rest register by register. -/
theorem resetSetsEveryRegister : Obligations.ResetSetsEveryRegister := fun s =>
  ⟨step_of_reset rfl, applyReset_rng s, applyReset_level s, applyReset_maxhp s, applyReset_maxmp s, applyReset_sex s,
    applyReset_pers s, applyReset_job s, applyReset_attr s,
    statusWord_eq_zero (applyReset_fault s) (applyReset_cause s), applyReset_cfg s⟩

theorem resetWith_good (c : Cfg) : (State.resetWith c).Good := rfl

theorem readReg_resetWith {r : CReg} (hr : r ≠ .level) (c : Cfg) : (State.resetWith c).readReg r = 0#32 := by
  cases r with
  | level => exact absurd rfl hr
  | attr a => exact congrArg (BitVec.setWidth 32) (resetWith_attr c a)
  | maxhp | maxmp | sex | pers | job => rfl

/-- A legal `reg` field other than 0 names a register other than `LEVEL` (R23). -/
theorem regOfField_of_ne_zero {reg : Byte} (h : regFieldLegal reg = true) (hne : reg ≠ 0#8) :
    ∃ r, r ≠ .level ∧ regOfField reg = some r := by
  cases hr : regOfField reg with
  | none => exact absurd (h.symm.trans (regFieldLegal_of_none hr)) (by decide)
  | some r =>
    refine ⟨r, ?_, rfl⟩
    rintro rfl
    exact hne (eq_fieldOfReg hr)

/-- Right after reset `CH_RD` of every register but `LEVEL` answers 0 (R241). -/
theorem exec_chRd_resetWith (c : Cfg) {reg : Byte} (h : regFieldLegal reg = true) (hne : reg ≠ 0#8) :
    exec (.chRd reg) (State.resetWith c) = .next ((State.resetWith c).afterOk 0) := by
  obtain ⟨r, hr, hreg⟩ := regOfField_of_ne_zero h hne
  simp only [exec_chRd (resetWith_good c), hreg, readReg_resetWith hr]
  rfl

theorem rngNext_defaultSeed : rngNext Config.defaultSeed = 0xE21259C7#32 := by decide

/-- Settles O13: every answer reads registers that reset sets, none of them from the tables. -/
theorem firstAnswersAfterReset : Obligations.FirstAnswersAfterReset := by
  intro c
  have hg := resetWith_good c
  refine ⟨exec_rngRead hg, exec_chRd_of_readReg hg (r := .level) rfl, fun reg hreg => ?_, ?_, ?_⟩
  · have hlegal : regFieldLegal reg = true := decide_eq_true (by omega)
    have hne : reg ≠ 0#8 := by
      rintro rfl
      simp at hreg
    exact exec_chRd_resetWith c hlegal hne
  · rw [exec_status, statusWord_eq_zero rfl rfl]
    rfl
  · have hrng : rngNext (State.resetWith c).rng = 0xE21259C7#32 := rngNext_defaultSeed
    rw [exec_randU hg, hrng]
    rfl

end Sys2Proof.Machine
